-- ==== Sys2Proof/Word.lean ====
section
/-! DEFINITION. The word types of the block (00_scope.md R8, R13). -/

namespace Sys2Proof

/-- R8: a register, an address and a command are each one 32-bit word. -/
abbrev Word := BitVec 32

/-- R83: every operand of a command is an unsigned 8-bit immediate. -/
abbrev Byte := BitVec 8

end Sys2Proof
end

