-- ==== Sys2Proof/Syntax.lean ====
section
/-! DEFINITION. The eleven commands (30_encoding.md R84), one constructor per row of spec/opcode_table.json. -/

namespace Sys2Proof

/-- R84. Every operand is an unsigned 8-bit immediate taken from its field (R83), so no operand outside 0 to 255 can be
written down; a pin number out of range, a zero multiplier and a duty that does not fit are legal words (R89). -/
inductive Instr where
  | enable
  | disable
  | setTarget (value : Byte)
  | setPrescale (value : Byte)
  | configDuty (duty m : Byte)
  | presetA (duty : Byte)
  | presetB (duty : Byte)
  | bind (pin : Byte)
  | unbind (pin : Byte)
  | setup (pin : Byte)
  | close (pin : Byte)
  deriving DecidableEq, Repr

end Sys2Proof
end

