-- ==== Sys2Proof/Decode.lean ====
section
/-! DEFINITION. Decoding a command word (30_encoding.md R82, R90), total on all 2^32 words and rejecting by name, and
the encoder (R85). -/

namespace Sys2Proof

/-- R82: `op = cmd[31:24]`. -/
def opField (cmd : Word) : Byte := cmd.extractLsb' 24 8
/-- R82: `z = cmd[23:16]`. -/
def zField (cmd : Word) : Byte := cmd.extractLsb' 16 8
/-- R82: `b = cmd[15:8]`. -/
def bField (cmd : Word) : Byte := cmd.extractLsb' 8 8
/-- R82: `a = cmd[7:0]`. -/
def aField (cmd : Word) : Byte := cmd.extractLsb' 0 8

/-- Why a word is `Illegal` (R90). The block does not tell the reasons apart: each is the one fault `IllegalCommand`. -/
inductive IllegalWord where
  /-- R87: `op = 0x00` or `op ≥ 0x0C` -/
  | opcode (op : Byte)
  /-- R88: `z ≠ 0` -/
  | zNonzero
  /-- R88: `b ≠ 0` in a command of shape N or A, or `a ≠ 0` in a command of shape N -/
  | operandNonzero
  deriving DecidableEq, Repr

/-- R82: shape N has both operand fields zero. -/
def shapeN (a b : Byte) (i : Instr) : Except IllegalWord Instr :=
  if a = 0#8 ∧ b = 0#8 then .ok i else .error .operandNonzero

/-- R82: shape A has the second operand field zero. -/
def shapeA (b : Byte) (i : Instr) : Except IllegalWord Instr :=
  if b = 0#8 then .ok i else .error .operandNonzero

/-- R84: the command an opcode selects, given the operand fields. -/
def commandOf (op a b : Byte) : Except IllegalWord Instr :=
  match op.toNat with
  | 0x01 => shapeN a b .enable
  | 0x02 => shapeN a b .disable
  | 0x03 => shapeA b (.setTarget a)
  | 0x04 => shapeA b (.setPrescale a)
  | 0x05 => .ok (.configDuty a b)
  | 0x06 => shapeA b (.presetA a)
  | 0x07 => shapeA b (.presetB a)
  | 0x08 => shapeA b (.bind a)
  | 0x09 => shapeA b (.unbind a)
  | 0x0A => shapeA b (.setup a)
  | 0x0B => shapeA b (.close a)
  | _ => .error (.opcode op)

/-- R90: the decode procedure. -/
def decode (cmd : Word) : Except IllegalWord Instr :=
  if zField cmd ≠ 0#8 then .error .zNonzero
  else commandOf (opField cmd) (aField cmd) (bField cmd)

/-- R85: `cmd = (op << 24) | (b << 8) | a`. -/
def encodeFields (op b a : Byte) : Word :=
  (op.setWidth 32 <<< 24) ||| (b.setWidth 32 <<< 8) ||| a.setWidth 32

/-- R84, R85: the one word of a command. -/
def encode : Instr → Word
  | .enable => encodeFields 0x01#8 0#8 0#8
  | .disable => encodeFields 0x02#8 0#8 0#8
  | .setTarget value => encodeFields 0x03#8 0#8 value
  | .setPrescale value => encodeFields 0x04#8 0#8 value
  | .configDuty duty m => encodeFields 0x05#8 m duty
  | .presetA duty => encodeFields 0x06#8 0#8 duty
  | .presetB duty => encodeFields 0x07#8 0#8 duty
  | .bind pin => encodeFields 0x08#8 0#8 pin
  | .unbind pin => encodeFields 0x09#8 0#8 pin
  | .setup pin => encodeFields 0x0A#8 0#8 pin
  | .close pin => encodeFields 0x0B#8 0#8 pin

/-- One row of the table of R84: a word selects the row when `word & mask = code`. -/
structure OpRow where
  code : Word
  mask : Word
  deriving DecidableEq, Repr

/-- R84: the eleven rows, in the table's order. -/
def opRows : List OpRow :=
  [⟨0x01000000#32, 0xFFFFFFFF#32⟩, ⟨0x02000000#32, 0xFFFFFFFF#32⟩, ⟨0x03000000#32, 0xFFFFFF00#32⟩,
   ⟨0x04000000#32, 0xFFFFFF00#32⟩, ⟨0x05000000#32, 0xFFFF0000#32⟩, ⟨0x06000000#32, 0xFFFFFF00#32⟩,
   ⟨0x07000000#32, 0xFFFFFF00#32⟩, ⟨0x08000000#32, 0xFFFFFF00#32⟩, ⟨0x09000000#32, 0xFFFFFF00#32⟩,
   ⟨0x0A000000#32, 0xFFFFFF00#32⟩, ⟨0x0B000000#32, 0xFFFFFF00#32⟩]

/-- R84: a word selects a row. -/
def OpRow.selects (r : OpRow) (cmd : Word) : Bool := cmd &&& r.mask == r.code

/-- The command the decoder reads from a word given as a number whose low `nbits` bits count. A command is presented
to the port as one whole word (R81), so no byte order enters. -/
def decodeTableWord (nbits w : Nat) : Option Instr :=
  match decode (BitVec.ofNat 32 (w % 2 ^ nbits)) with
  | .ok i => some i
  | .error _ => none

end Sys2Proof
end

