-- ==== Sys2Proof/Config.lean ====
section
/-! DEFINITION. The configuration record `Cfg` (00_scope.md R9): what the source leaves to the platform.
It is plain data, so that a statement about every state is a statement about every configuration (log entry 1). -/

namespace Sys2Proof

/-- The parameters R9 gives per pin: one record per valid pin, in the order of the pin numbers. -/
structure PinCfg where
  /-- `PIN_CTRL_ADDR(n)` -/
  ctrlAddr : Word
  /-- `FUNC_ADDR(n)` -/
  funcAddr : Word
  /-- `GPIO_FUNC_BITS(n)`, already placed under `FUNC_FIELD_MASK` -/
  funcBits : Word
  deriving DecidableEq, Repr

/-- R9. `NPINS` is the length of `pins`. The constraints R9 puts on the record are `Cfg.Wf`. -/
structure Cfg where
  pins : List PinCfg
  /-- `SD_ADDR` -/
  sdAddr : Word
  /-- `OUT_EN_ADDR` -/
  outEnAddr : Word
  /-- `OUT_EN_W1TS_ADDR` -/
  outEnSetAddr : Word
  /-- `OUT_EN_W1TC_ADDR` -/
  outEnClrAddr : Word
  /-- `SRC_BIT` -/
  srcBit : Fin 32
  /-- `FUNC_FIELD_MASK` -/
  funcMask : Word
  /-- `F_BASE`, in hertz; read only by the informative view `freq` (R123) -/
  fBase : Rat
  deriving DecidableEq, Repr

end Sys2Proof
end

