-- ==== Sys2Proof/Machine/Params.lean ====
section
/-! DEFINITION. Derived parameters of a configuration, and the reference configuration of the spec (00_scope.md R9, R10). -/

namespace Sys2Proof

/-- `NPINS` (R9). -/
def Cfg.npins (c : Cfg) : Nat := c.pins.length

/-- R15: `SRC_MASK = 1 << SRC_BIT`. -/
def Cfg.srcMask (c : Cfg) : Word := 1#32 <<< c.srcBit.val

/-- Every address R9 names, each once. -/
def Cfg.addrs (c : Cfg) : List Word :=
  c.sdAddr :: c.outEnAddr :: c.outEnSetAddr :: c.outEnClrAddr ::
    (c.pins.map PinCfg.ctrlAddr ++ c.pins.map PinCfg.funcAddr)

/-- R31: the record of a pin named by an 8-bit operand; none exactly when `pin ≥ NPINS`. -/
def Cfg.pin? (c : Cfg) (pin : Byte) : Option PinCfg := c.pins[pin.toNat]?

/-- The pins of `REFCFG` (R10). -/
def refPin (n : Nat) : PinCfg where
  ctrlAddr := BitVec.ofNat 32 (0x60000328 + 4 * n)
  funcAddr := BitVec.ofNat 32 (0x60000800 + 4 * n)
  funcBits := if n = 0 ∨ n = 2 ∨ n = 4 ∨ n = 5 then 0x00000000#32 else 0x00000030#32

/-- `REFCFG` (R10): the spec's own test configuration. It says nothing about any chip; the model uses it for
`State.reset` and for its tests only (log entry 2). -/
def refCfg : Cfg where
  pins := (List.range 16).map refPin
  sdAddr := 0x60000368#32
  outEnAddr := 0x6000030C#32
  outEnSetAddr := 0x60000310#32
  outEnClrAddr := 0x60000314#32
  srcBit := 0
  funcMask := 0x00000130#32
  fBase := 80000000

end Sys2Proof
end

