-- ==== Sys2Proof/Machine/State.lean ====
section
/-! DEFINITION. The state of the machine (10_state.md R40), plain data, and the state after reset
(70_reset_and_hazards.md R180). -/

namespace Sys2Proof.Machine

/-- R12: who makes a register access. `other` stands for every agent that is not the block. -/
inductive Agent where
  | block
  | other
  deriving DecidableEq, Repr

/-- R14: the two primitives. -/
inductive Dir where
  | read
  | write
  deriving DecidableEq, Repr

/-- One access that took effect: who, which primitive, where, and the word read or written. -/
structure Access where
  agent : Agent
  dir : Dir
  addr : Word
  data : Word
  deriving DecidableEq, Repr

/-- R54, R59: the width an other bus agent asks for; only `word` exists. -/
inductive Width where
  | byte
  | half
  | word
  deriving DecidableEq, Repr

/-- What an other bus agent asks for: a read, or a write with its data. -/
inductive BusOp where
  | read
  | write (data : Word)
  deriving DecidableEq, Repr

/-- R12 (c): one access by an other bus agent. -/
structure BusAccess where
  op : BusOp
  addr : Word
  width : Width
  deriving DecidableEq, Repr

/-- R12, R64: one place in the order in which the agents act: the block's next action, or the given access of an other bus
agent. An action of the block is the sampling of the word the host presents, one access, or the answer (R81); each is a turn
of its own, so that an other agent can act before and after every one of them (log entry 4). -/
inductive Turn where
  | block
  | agent (a : BusAccess)
  deriving DecidableEq, Repr

/-- R35: the fault record. -/
structure FaultRecord where
  valid : Bool
  cause : BitVec 3
  cmd : Word
  deriving DecidableEq, Repr

/-- R26, R40: the contents of the registers in the register address space. -/
structure Contents where
  sdReg : Word
  pinCtrl : List Word
  func : List Word
  outEn : Word
  deriving DecidableEq, Repr

/-- Why the machine stops with a fault. The four causes of R151 are NOT among them: they are entered in the fault record
and the block goes on (R152, R160). -/
inductive Fault where
  /-- Raised by the block's own access to an address that names no register. R51 and R59 say the block never makes one,
  and no well-formed state raises it (the model states this). Safe: it only stops a run. -/
  | blockAccess (addr : Word)
  deriving DecidableEq, Repr

/-- Why a step has no meaning. -/
inductive Refusal where
  /-- Raised by an arm of `exec` whose command has no meaning yet; no arm raises it. Safe. -/
  | notModelled (mnemonic : String)
  /-- R59: raised by an other bus agent's access that the sources do not define (a read of a write-only port, an address
  outside the map, a narrow or misaligned access): no step exists. Safe. -/
  | undefinedAccess (a : BusAccess)
  /-- R18, R37: raised when the block is idle, the command stream is exhausted and no agent acts: the run has ended.
  Safe. -/
  | runEnded
  deriving DecidableEq, Repr

/-- R40 lists `sdReg` to `fault`, the state of the hardware. `cfg` (R9), `stream` and `pc` (R37) and `sched` (R64, R166)
are what R40 calls "not state": inputs, which stand here because a step is a function of the state alone (log entries
1, 3, 4). `responses` and `trace` are what the port answered (R81) and the accesses made (R18), oldest first: nothing
reads them back. -/
structure State where
  /-- R9: fixed for the machine; no step changes it. -/
  cfg : Cfg
  /-- R20 -/
  sdReg : Word
  /-- R27: `PIN_CTRL[n]` for `n < NPINS` -/
  pinCtrl : List Word
  /-- R28: `FUNC[n]` for `n < NPINS` -/
  func : List Word
  /-- R29 -/
  outEn : Word
  /-- R34 -/
  busy : Bool
  /-- R34: the command word in flight -/
  curCmd : Word
  /-- R34: the index of the next micro-step -/
  upc : Nat
  /-- R34: the word the last `MemRead` of the command returned -/
  tmp : Word
  /-- R35 -/
  fault : FaultRecord
  /-- R37: the host's command stream -/
  stream : List Word
  /-- R37: the index of the next command to present -/
  pc : Nat
  /-- R12, R64: the rest of the order in which the agents act; past its end only the block acts -/
  sched : List Turn
  /-- R81: the 4-bit response of every finished command -/
  responses : List (BitVec 4)
  /-- R18: every access made -/
  trace : List Access
  deriving DecidableEq, Repr

/-- R180: the state after reset, for any configuration and any register contents. R180 leaves the contents unspecified;
what it fixes is fixed here. `curCmd`, `upc` and `tmp` hold nothing while the block is idle (log entry 6). That the order of the
other agents is EMPTY at reset is the model's choice (DESIGN CHOICE, log entry 4): D24 of 92_eei_decisions.md leaves it
quantified, and any other order is `sched` replaced. So is that the stream is empty (log entry 3), and that the two recording
lists are (log entry 10). -/
def State.resetOf (c : Cfg) (k : Contents) : State where
  cfg := c
  sdReg := k.sdReg
  pinCtrl := k.pinCtrl
  func := k.func
  outEn := k.outEn
  busy := false
  curCmd := 0#32
  upc := 0
  tmp := 0#32
  fault := ⟨false, 0#3, 0#32⟩
  stream := []
  pc := 0
  sched := []
  responses := []
  trace := []

/-- Every register zero: DESIGN CHOICE (log entry 5), since R180 gives no value. -/
def zeroContents (c : Cfg) : Contents where
  sdReg := 0#32
  pinCtrl := List.replicate c.npins 0#32
  func := List.replicate c.npins 0#32
  outEn := 0#32

/-- The machine right after reset: one member of the family R180 and D24 allow (log entries 2, 3, 4 and 5): in a run from it no
other agent acts. -/
def State.reset : State := State.resetOf refCfg (zeroContents refCfg)

end Sys2Proof.Machine
end

