-- ==== Sys2Proof/Machine/Flags.lean ====
section
/-! DEFINITION. The fault causes and the fault record (60_exceptions.md R151 to R153). The block has no flags besides
`FAULT.valid` (10_state.md R38). -/

namespace Sys2Proof.Machine

/-- R151: the four causes. -/
inductive Cause where
  | illegalCommand
  | pinRange
  | multZero
  | prescaleRange
  deriving DecidableEq, Repr

/-- R151: the cause code, as `FAULT.cause` holds it. -/
def Cause.code : Cause → BitVec 3
  | .illegalCommand => 1#3
  | .pinRange => 2#3
  | .multZero => 3#3
  | .prescaleRange => 4#3

/-- R81, R151: the same code as the 4-bit response. -/
def Cause.resp (c : Cause) : BitVec 4 := c.code.setWidth 4

/-- R81: the response of a command that ends without a fault. -/
def respOk : BitVec 4 := 0#4

/-- R152 (2), R153: the record keeps the first fault after reset. -/
def FaultRecord.latch (f : FaultRecord) (c : Cause) (cmd : Word) : FaultRecord :=
  if f.valid then f else ⟨true, c.code, cmd⟩

end Sys2Proof.Machine
end

