-- ==== Sys2Proof/Machine/Operands.lean ====
section
/-! DEFINITION. Field helpers of the registers (00_scope.md R15, 10_state.md R21) and the pure functions of the
parameter converter (42_parameter_converter.md R120, R124). -/

namespace Sys2Proof

/-- R15: `target(w) = w[7:0]`. -/
def targetField (w : Word) : Byte := w.extractLsb' 0 8
/-- R15: `prescale(w) = w[15:8]`. -/
def prescaleField (w : Word) : Byte := w.extractLsb' 8 8
/-- R15: `enable(w) = w[16]`. -/
def enableField (w : Word) : Bool := w.getLsbD 16
/-- R15: `other(w) = w[31:17]`. -/
def otherField (w : Word) : BitVec 15 := w.extractLsb' 17 15

/-- R15: `TARGET_MASK`. -/
def targetMask : Word := 0x000000FF#32
/-- R15: `PRESCALE_MASK`. -/
def prescaleMask : Word := 0x0000FF00#32
/-- R15: `ENABLE_MASK`. -/
def enableMask : Word := 0x00010000#32
/-- R15, R21: `SD_FIELDS_MASK`, the mask for all three fields combined (bits 16:0). -/
def sdFieldsMask : Word := 0x0001FFFF#32

/-- R13: `zext_32(v)`. -/
def zext32 (v : Byte) : Word := v.setWidth 32

/-- R15: `pack(e, p, t) = (e << 16) | (p << 8) | t`. -/
def pack (e : Bool) (p t : Byte) : Word :=
  ((BitVec.ofBool e).setWidth 32 <<< 16) ||| (zext32 p <<< 8) ||| zext32 t

/-- R52: the output-enable data word `1 << pin` (`pin < 32` in every accepted command). -/
def pinBit (pin : Byte) : Word := 1#32 <<< pin.toNat

/-- R120: the folded value of a duty, on natural numbers. -/
def fold (duty : Byte) : Nat := if duty.toNat > 128 then 256 - duty.toNat else duty.toNat

/-- R124: `pre(m, t)`, on natural numbers, before any range check. -/
def pre (m t : Nat) : Nat := if t = 0 then 0 else m * t - 1

/-- R130: `T(m) = min(128, floor(256 / m))`, the largest folded value CONFIG_DUTY accepts at multiplier `m ≥ 1`. -/
def maxFold (m : Nat) : Nat := min 128 (256 / m)

end Sys2Proof
end

