-- ==== Sys2Proof/Machine/Ops.lean ====
section
/-! DEFINITION. The shared operations: the register address space (20_memory.md R51, R56, R57), the accesses of the
block and of the other bus agents, the end of a command and the entry of a fault (60_exceptions.md R152), and the run of
a command's micro-steps. -/

namespace Sys2Proof.Machine

/-- The outcome of a step. -/
abbrev Result := Host.Outcome State Fault Refusal

/-- Go on with a next state; a fault or a refusal stays. -/
def andThen (r : Result) (f : State → Result) : Result :=
  match r with
  | .next s => f s
  | .fault e => .fault e
  | .refused e => .refused e

/-- The next state of an outcome, if there is one. -/
def nextState? : Result → Option State
  | .next s => some s
  | .fault _ => none
  | .refused _ => none

/-! ### The address space -/

/-- R51: what an address names. -/
inductive Loc where
  | sdReg
  | pinCtrl (n : Nat)
  | func (n : Nat)
  | outEn
  | outEnSet
  | outEnClr
  deriving DecidableEq, Repr

/-- The pin registers among the locations: the index of the first pin with that address. -/
def locatePin (c : Cfg) (addr : Word) : Option Loc :=
  match c.pins.findIdx? (fun p => p.ctrlAddr == addr) with
  | some n => some (.pinCtrl n)
  | none =>
    match c.pins.findIdx? (fun p => p.funcAddr == addr) with
    | some n => some (.func n)
    | none => none

/-- R51: the address map; none at any other address. -/
def locate (c : Cfg) (addr : Word) : Option Loc :=
  if addr = c.sdAddr then some .sdReg
  else if addr = c.outEnAddr then some .outEn
  else if addr = c.outEnSetAddr then some .outEnSet
  else if addr = c.outEnClrAddr then some .outEnClr
  else locatePin c addr

/-- R51: the read column. The two ports have no storage (R29). So `2 + 2*NPINS` registers can be read (`SD_REG`, `OUT_EN`,
`PIN_CTRL[n]`, `FUNC[n]`), as R51, R56 and R40 list them; R50 counts `3 + 2*NPINS` and names no further one. That the list is
followed and not the count is the model's choice (DESIGN CHOICE, log entry 18). -/
def State.readLoc (s : State) : Loc → Option Word
  | .sdReg => some s.sdReg
  | .pinCtrl n => s.pinCtrl[n]?
  | .func n => s.func[n]?
  | .outEn => some s.outEn
  | .outEnSet => none
  | .outEnClr => none

/-- R51, R57: the write column. -/
def State.writeLoc (s : State) (l : Loc) (v : Word) : State :=
  match l with
  | .sdReg => { s with sdReg := v }
  | .pinCtrl n => { s with pinCtrl := s.pinCtrl.set n v }
  | .func n => { s with func := s.func.set n v }
  | .outEn => { s with outEn := v }
  | .outEnSet => { s with outEn := s.outEn ||| v }
  | .outEnClr => { s with outEn := s.outEn &&& ~~~v }

/-- R56: `MemRead(addr, 4)`; none where R59 defines no read. -/
def State.memRead (s : State) (addr : Word) : Option Word :=
  match locate s.cfg addr with
  | some l => s.readLoc l
  | none => none

/-- R57: `MemWrite(addr, 4, v)`; none where R59 defines no write. -/
def State.memWrite (s : State) (addr v : Word) : Option State :=
  match locate s.cfg addr with
  | some l => some (s.writeLoc l v)
  | none => none

/-- R18: one more access made. -/
def State.log (s : State) (a : Access) : State := { s with trace := s.trace ++ [a] }

/-! ### Other bus agents -/

/-- R54, R59: only whole aligned words are accessed. -/
def BusAccess.wholeWord (a : BusAccess) : Bool := a.width == .word && a.addr.toNat % 4 == 0

/-- R12 (c), R56, R57, R59: one access by an other bus agent. It latches nothing in the block. -/
def busAccess (a : BusAccess) (s : State) : Result :=
  if a.wholeWord then
    match a.op with
    | .read =>
      match s.memRead a.addr with
      | some v => .next (s.log ⟨.other, .read, a.addr, v⟩)
      | none => .refused (.undefinedAccess a)
    | .write v =>
      match s.memWrite a.addr v with
      | some t => .next (t.log ⟨.other, .write, a.addr, v⟩)
      | none => .refused (.undefinedAccess a)
  else .refused (.undefinedAccess a)

/-- The accesses of this order that precede the block's next action are made, and the block's turn is used. -/
def agentsUntilBlock : List Turn → State → Result
  | [], s => .next { s with sched := [] }
  | .block :: rest, s => .next { s with sched := rest }
  | .agent a :: rest, s => andThen (busAccess a s) (agentsUntilBlock rest)

/-- R12, R61, R64: the other agents make their accesses up to the block's next action. -/
def agentsBefore (s : State) : Result := agentsUntilBlock s.sched s

/-- R12: the block acts and uses its turn, if the order still holds one. -/
def State.takeTurn (s : State) : State := { s with sched := s.sched.tail }

/-! ### The block's own accesses -/

/-- R17: one micro-step. `writeBack` writes `(tmp & keep) | ins`, the write half of a read-modify-write; `write` writes a
word that needs no read (the output-enable ports, R66). -/
inductive MicroOp where
  | read (addr : Word)
  | writeBack (addr keep ins : Word)
  | write (addr data : Word)
  deriving DecidableEq, Repr

/-- R34, R56: a read of the block latches the word in `tmp`. -/
def State.blockRead (s : State) (addr v : Word) : State :=
  { s.log ⟨.block, .read, addr, v⟩ with tmp := v, upc := s.upc + 1 }

/-- R57: a write of the block, to the register and the trace. -/
def State.blockWrite (s : State) (l : Loc) (addr v : Word) : State :=
  { (s.writeLoc l v).log ⟨.block, .write, addr, v⟩ with upc := s.upc + 1 }

/-- The block's write of a word, or the fault of an address that names nothing. -/
def blockStore (addr v : Word) (s : State) : Result :=
  match locate s.cfg addr with
  | some l => .next (s.blockWrite l addr v)
  | none => .fault (.blockAccess addr)

/-- R14, R63: one micro-step of the block. The written word is computed from `tmp`, not from the register (R34, R61). -/
def blockAccess (op : MicroOp) (s : State) : Result :=
  match op with
  | .read addr =>
    match s.memRead addr with
    | some v => .next (s.blockRead addr v)
    | none => .fault (.blockAccess addr)
  | .writeBack addr keep ins => blockStore addr ((s.tmp &&& keep) ||| ins) s
  | .write addr data => blockStore addr data s

/-! ### A command: its start, its end, its faults -/

/-- R81 (2): the block samples the word. -/
def State.sample (s : State) (cmd : Word) : State := { s with busy := true, curCmd := cmd, upc := 0 }

/-- R81 (3): the first micro-step is the next. -/
def State.start (s : State) : State := { s with busy := true, upc := 0 }

/-- R81 (4), R37: the block answers and is idle; the host's index advances by 1, whatever the answer. -/
def State.respond (s : State) (code : BitVec 4) : State :=
  { s with busy := false, pc := s.pc + 1, responses := s.responses ++ [code] }

/-- R14: `resp <- OK`. -/
def State.finish (s : State) : State := s.respond respOk

/-- R152: fault entry, what `raise F(cmd)` does. There is no return from it: the block is idle (R160). -/
def State.raise (s : State) (c : Cause) : State :=
  { s with fault := s.fault.latch c s.curCmd }.respond c.resp

/-- R12, R63: the micro-steps in their order, each after the accesses that other agents make before it. -/
def runOps : List MicroOp → State → Result
  | [], s => .next s
  | op :: ops, s => andThen (andThen (agentsBefore s) (blockAccess op)) (runOps ops)

/-- R12, R81 (4): the block's answer, after the accesses that other agents make before it. -/
def answer (f : State → State) (s : State) : Result := andThen (agentsBefore s) (fun t => .next (f t))

/-- The rest of a command: its remaining micro-steps, then `resp <- OK`. -/
def perform (ops : List MicroOp) (s : State) : Result := andThen (runOps ops s) (answer State.finish)

/-- The rest of a command that faults: `raise F(cmd)`, with no micro-step (R152, R159). -/
def performRaise (c : Cause) (s : State) : Result := answer (fun t => t.raise c) s

/-- What the checks of a command come to: a fault before any access (R150, R159), or its micro-steps. -/
inductive Plan where
  | raise (c : Cause)
  | run (ops : List MicroOp)
  deriving DecidableEq, Repr

/-- R152, R194: how many accesses a plan makes. -/
def Plan.length : Plan → Nat
  | .raise _ => 0
  | .run ops => ops.length

/-- R34: what is left of a plan once `n` micro-steps have been made. -/
def Plan.drop (n : Nat) : Plan → Plan
  | .raise c => .raise c
  | .run ops => .run (ops.drop n)

/-- R81 (3), (4): one whole command, from the state in which its word has been sampled. -/
def transact (p : Plan) (s : State) : Result :=
  match p with
  | .raise c => performRaise c s
  | .run ops => perform ops s.start

end Sys2Proof.Machine
end

