-- ==== Sys2Proof/Machine/Modulator.lean ====
section
/-! DEFINITION. The Modulator Controller: ENABLE, DISABLE, SET_TARGET, SET_PRESCALE (41_modulator_controller.md). -/

namespace Sys2Proof.Machine

/-- R110: the two micro-steps of ENABLE. -/
def opsEnable (c : Cfg) : List MicroOp :=
  [.read c.sdAddr, .writeBack c.sdAddr 0xFFFE0000#32 0x00010000#32]

/-- R111: the two micro-steps of DISABLE. -/
def opsDisable (c : Cfg) : List MicroOp :=
  [.read c.sdAddr, .writeBack c.sdAddr 0xFFFE0000#32 0x00000000#32]

/-- R112: the two micro-steps of SET_TARGET. -/
def opsSetTarget (c : Cfg) (value : Byte) : List MicroOp :=
  [.read c.sdAddr, .writeBack c.sdAddr 0xFFFFFF00#32 (zext32 value)]

/-- R113: the two micro-steps of SET_PRESCALE. -/
def opsSetPrescale (c : Cfg) (value : Byte) : List MicroOp :=
  [.read c.sdAddr, .writeBack c.sdAddr 0xFFFF00FF#32 (zext32 value <<< 8)]

/-- R110 -/
def planEnable (c : Cfg) : Plan := .run (opsEnable c)
/-- R111 -/
def planDisable (c : Cfg) : Plan := .run (opsDisable c)
/-- R112 -/
def planSetTarget (c : Cfg) (value : Byte) : Plan := .run (opsSetTarget c value)
/-- R113 -/
def planSetPrescale (c : Cfg) (value : Byte) : Plan := .run (opsSetPrescale c value)

/-- R110: ENABLE. -/
def execEnable (s : State) : Result := transact (planEnable s.cfg) s
/-- R111: DISABLE. -/
def execDisable (s : State) : Result := transact (planDisable s.cfg) s
/-- R112: SET_TARGET. -/
def execSetTarget (value : Byte) (s : State) : Result := transact (planSetTarget s.cfg value) s
/-- R113: SET_PRESCALE. -/
def execSetPrescale (value : Byte) (s : State) : Result := transact (planSetPrescale s.cfg value) s

end Sys2Proof.Machine
end

