-- ==== Sys2Proof/Machine/PinBinder.lean ====
section
/-! DEFINITION. The Pin Binder: BIND and UNBIND (40_pin_binder.md R100, R101). -/

namespace Sys2Proof.Machine

/-- R100, R102: the five micro-steps of BIND, the source select before the output enable. -/
def opsBind (c : Cfg) (pin : Byte) (p : PinCfg) : List MicroOp :=
  [.read p.funcAddr, .writeBack p.funcAddr (~~~c.funcMask) p.funcBits,
   .read p.ctrlAddr, .writeBack p.ctrlAddr 0xFFFFFFFF#32 c.srcMask,
   .write c.outEnSetAddr (pinBit pin)]

/-- R101, R103: the three micro-steps of UNBIND, the output disable first. -/
def opsUnbind (c : Cfg) (pin : Byte) (p : PinCfg) : List MicroOp :=
  [.write c.outEnClrAddr (pinBit pin), .read p.ctrlAddr, .writeBack p.ctrlAddr (~~~c.srcMask) 0x00000000#32]

/-- R155: `if pin >= NPINS then raise PinRange(cmd)`; otherwise the pin's record gives the addresses (R52). -/
def planPin (c : Cfg) (pin : Byte) (ops : PinCfg → List MicroOp) : Plan :=
  match c.pin? pin with
  | none => .raise .pinRange
  | some p => .run (ops p)

/-- R100. BIND does not test `SD_REG.enable` (R104). -/
def planBind (c : Cfg) (pin : Byte) : Plan := planPin c pin (opsBind c pin)
/-- R101 -/
def planUnbind (c : Cfg) (pin : Byte) : Plan := planPin c pin (opsUnbind c pin)

/-- R100: BIND. -/
def execBind (pin : Byte) (s : State) : Result := transact (planBind s.cfg pin) s
/-- R101: UNBIND. -/
def execUnbind (pin : Byte) (s : State) : Result := transact (planUnbind s.cfg pin) s

end Sys2Proof.Machine
end

