-- ==== Sys2Proof/Machine/Composite.lean ====
section
/-! DEFINITION. The composites: SETUP and CLOSE (43_composite.md R140, R141). The pin check comes before any access. -/

namespace Sys2Proof.Machine

/-- R140: the two micro-steps of ENABLE, then the five of BIND. -/
def opsSetup (c : Cfg) (pin : Byte) (p : PinCfg) : List MicroOp := opsEnable c ++ opsBind c pin p

/-- R141: the three micro-steps of UNBIND, then the two of DISABLE. -/
def opsClose (c : Cfg) (pin : Byte) (p : PinCfg) : List MicroOp := opsUnbind c pin p ++ opsDisable c

/-- R140 -/
def planSetup (c : Cfg) (pin : Byte) : Plan := planPin c pin (opsSetup c pin)
/-- R141 -/
def planClose (c : Cfg) (pin : Byte) : Plan := planPin c pin (opsClose c pin)

/-- R140: SETUP. -/
def execSetup (pin : Byte) (s : State) : Result := transact (planSetup s.cfg pin) s
/-- R141: CLOSE. -/
def execClose (pin : Byte) (s : State) : Result := transact (planClose s.cfg pin) s

end Sys2Proof.Machine
end

