-- ==== Sys2Proof/Machine/Converter.lean ====
section
/-! DEFINITION. The parameter converter: CONFIG_DUTY, PRESET_A, PRESET_B (42_parameter_converter.md R125 to R127). -/

namespace Sys2Proof.Machine

/-- R125: the four micro-steps, exactly SET_TARGET duty and then SET_PRESCALE p. -/
def opsConfigure (c : Cfg) (duty p : Byte) : List MicroOp :=
  opsSetTarget c duty ++ opsSetPrescale c p

/-- R125: `p <- q[7:0]`. -/
def low8 (q : Nat) : Byte := BitVec.ofNat 8 q

/-- R125, R158: the checks of CONFIG_DUTY, `MultZero` before `PrescaleRange`, on the full-width value. -/
def planConfigDuty (c : Cfg) (duty m : Byte) : Plan :=
  if m.toNat = 0 then .raise .multZero
  else if pre m.toNat (fold duty) > 255 then .raise .prescaleRange
  else .run (opsConfigure c duty (low8 (pre m.toNat (fold duty))))

/-- R126: `prescale = t==0 ? 0 : t-1`. -/
def presetAPrescale (duty : Byte) : Nat := if fold duty = 0 then 0 else fold duty - 1

/-- R127: `prescale = t==0 ? 0 : 2*t-1`. -/
def presetBPrescale (duty : Byte) : Nat := if fold duty = 0 then 0 else 2 * fold duty - 1

/-- R126 -/
def planPresetA (c : Cfg) (duty : Byte) : Plan := .run (opsConfigure c duty (low8 (presetAPrescale duty)))
/-- R127 -/
def planPresetB (c : Cfg) (duty : Byte) : Plan := .run (opsConfigure c duty (low8 (presetBPrescale duty)))

/-- R125: CONFIG_DUTY. -/
def execConfigDuty (duty m : Byte) (s : State) : Result := transact (planConfigDuty s.cfg duty m) s
/-- R126: PRESET_A. -/
def execPresetA (duty : Byte) (s : State) : Result := transact (planPresetA s.cfg duty) s
/-- R127: PRESET_B. -/
def execPresetB (duty : Byte) (s : State) : Result := transact (planPresetB s.cfg duty) s

end Sys2Proof.Machine
end

