-- ==== Sys2Proof/Machine/Dispatch.lean ====
section
/-! DEFINITION. The meaning of every command (30_encoding.md R84), one arm each. -/

namespace Sys2Proof.Machine

/-- One whole command, from the state in which the block has sampled it (R81). -/
def exec (i : Instr) (s : State) : Host.Outcome State Fault Refusal :=
  match i with
  | .enable => Sys2Proof.Machine.execEnable s
  | .disable => Sys2Proof.Machine.execDisable s
  | .setTarget value => Sys2Proof.Machine.execSetTarget value s
  | .setPrescale value => Sys2Proof.Machine.execSetPrescale value s
  | .configDuty duty m => Sys2Proof.Machine.execConfigDuty duty m s
  | .presetA duty => Sys2Proof.Machine.execPresetA duty s
  | .presetB duty => Sys2Proof.Machine.execPresetB duty s
  | .bind pin => Sys2Proof.Machine.execBind pin s
  | .unbind pin => Sys2Proof.Machine.execUnbind pin s
  | .setup pin => Sys2Proof.Machine.execSetup pin s
  | .close pin => Sys2Proof.Machine.execClose pin s

end Sys2Proof.Machine
end

