-- ==== Sys2Proof/Machine/Port.lean ====
section
/-! DEFINITION. The command port (30_encoding.md R81), the command in flight (10_state.md R34), and the machine one
micro-step at a time (00_scope.md R12, R14). -/

namespace Sys2Proof.Machine

/-- The checks and micro-steps of every command, for a command already in flight. -/
def planOf (c : Cfg) : Instr → Plan
  | .enable => planEnable c
  | .disable => planDisable c
  | .setTarget value => planSetTarget c value
  | .setPrescale value => planSetPrescale c value
  | .configDuty duty m => planConfigDuty c duty m
  | .presetA duty => planPresetA c duty
  | .presetB duty => planPresetB c duty
  | .bind pin => planBind c pin
  | .unbind pin => planUnbind c pin
  | .setup pin => planSetup c pin
  | .close pin => planClose c pin

/-- R87, R90, R152: the checks and micro-steps of a command word; a word that decodes to nothing faults. -/
def wordPlan (c : Cfg) (cmd : Word) : Plan :=
  match decode cmd with
  | .error _ => .raise .illegalCommand
  | .ok i => planOf c i

/-- R34: what the command in flight has still to do. There is no check between micro-steps (R159). -/
def State.inFlight (s : State) : Plan := (wordPlan s.cfg s.curCmd).drop s.upc

/-- What happens next. -/
inductive PortAction where
  /-- a command is in flight: the host may not present a word (R81) -/
  | resume
  /-- the block is idle, and an other bus agent, the host among them, acts (R12) -/
  | agentOnly (a : BusAccess) (rest : List Turn)
  /-- the block is idle and the host presents a word -/
  | present (cmd : Word)
  /-- R18: the run has ended -/
  | ended
  deriving DecidableEq, Repr

/-- R12, R37, R81: a busy block goes on; while it is idle an other agent acts when the order says so, also while the host
has a word left; otherwise the host presents the word at its stream index. -/
def State.portAction (s : State) : PortAction :=
  if s.busy then .resume
  else
    match s.sched with
    | .agent a :: rest => .agentOnly a rest
    | _ =>
      match s.stream[s.pc]? with
      | some cmd => .present cmd
      | none => .ended

/-- R12: one access of an other agent, and its turn is used. -/
def agentAlone (a : BusAccess) (rest : List Turn) (s : State) : Result := busAccess a { s with sched := rest }

/-- R87, R88, R154: a word that `decode` maps to `Illegal` is sampled and answered with its fault. -/
def presentIllegal (cmd : Word) (s : State) : Result := transact (.raise .illegalCommand) (s.takeTurn.sample cmd)

/-- The rest of the command in flight. -/
def resume (s : State) : Result :=
  match s.inFlight with
  | .raise c => performRaise c s
  | .run ops => perform ops s

/-! ### One micro-step at a time -/

/-- R81: one action of the block. An idle block samples the word the host presents; a busy one makes the next access of its
command or, when none is left, answers. The checks have no effect before the answer, so they take no action of their own. -/
def blockAction (s : State) : Result :=
  if s.busy then
    match s.inFlight with
    | .raise c => .next (s.raise c)
    | .run [] => .next s.finish
    | .run (op :: _) => blockAccess op s
  else
    match s.stream[s.pc]? with
    | some cmd => .next (s.sample cmd)
    | none => .refused .runEnded

/-- R12, R14, R63: the machine one micro-step at a time: an access of an other agent, at any point the order puts it, or the
block's next action. The states it passes through are those R68, R102, R103 and R129 call observable. -/
def microStep (s : State) : Result :=
  match s.sched with
  | .agent a :: rest => agentAlone a rest s
  | _ => blockAction s.takeTurn

/-- `n` micro-steps, up to the first that gives no next state. -/
def microRun : Nat → State → Result
  | 0, s => .next s
  | n + 1, s => andThen (microStep s) (microRun n)

/-! ### Placing a command, and losing power -/

/-- The stream with a word placed at an index; a stream that ends before the index is filled with the illegal word 0. -/
def placeWord (stream : List Word) (at' : Nat) (cmd : Word) : List Word :=
  stream.take at' ++ List.replicate (at' - stream.length) 0#32 ++ cmd :: stream.drop (at' + 1)

/-- R81: the host presents a word, which it may do only while the block is idle, and the block's next action is to sample
it. -/
def State.placeCommand (s : State) (cmd : Word) : State :=
  { s with busy := false, stream := placeWord s.stream s.pc cmd, sched := .block :: s.sched }

/-- R168, R180, R181: power is lost and comes back. Nothing of the block's state survives, also within a command. The
register contents after it are the argument, since R180 leaves them unspecified. The host's stream and the other agents'
order are inputs and stay; the host's index is 0. -/
def State.powerLoss (s : State) (k : Contents) : State :=
  { State.resetOf s.cfg k with stream := s.stream, sched := s.sched }

end Sys2Proof.Machine
end

