-- ==== Sys2Proof/Machine/Step.lean ====
section
/-! DEFINITION. One step of the machine: one command of the host's stream, from its sampling to its answer, or one access
of an other agent while the block is idle. -/

namespace Sys2Proof.Machine

/-- R12, R81: while the block is idle an other agent acts, or the block samples the word the host presents and executes it; a
busy block finishes the command in flight. -/
def step (s : State) : Host.Outcome State Fault Refusal :=
  match s.portAction with
  | .resume => resume s
  | .agentOnly a rest => agentAlone a rest s
  | .ended => .refused .runEnded
  | .present cmd =>
    match decode cmd with
    | .error _ => presentIllegal cmd s
    | .ok i => exec i (s.takeTurn.sample cmd)

/-- The state in which the very next step runs the command whose bits are `w`: the host presents that word to an idle
block. -/
def State.withFetchWord (s : State) (nbits w : Nat) : State := s.placeCommand (BitVec.ofNat 32 (w % 2 ^ nbits))

end Sys2Proof.Machine
end

