-- ==== Sys2Proof/Machine/Assembler.lean ====
section
/-! DEFINITION. The textual form of commands (30_encoding.md R92): one command per line, a mnemonic in capitals, its
operands separated by a comma, decimal or `0x` numerals in 0 to 255, a comment from `;` to the end of the line. It is
notation for command streams; no step reads it. -/

namespace Sys2Proof

/-- What a line of an assembly text is. -/
inductive AsmLine where
  /-- nothing but blanks and a comment -/
  | blank
  | command (i : Instr)
  /-- R92: an assembly error, not a command -/
  | error
  deriving DecidableEq, Repr

/-- Spaces and tabulators separate (DESIGN CHOICE, log entry 9: R92 does not say what does). -/
def isBlankChar (c : Char) : Bool := c == ' ' || c == '\t'

/-- A text without the blanks at its two ends. -/
def trimBlanks (l : List Char) : List Char :=
  ((l.dropWhile isBlankChar).reverse.dropWhile isBlankChar).reverse

/-- R92: a `;` starts a comment to the end of the line. -/
def dropComment (l : List Char) : List Char := l.takeWhile (fun c => c != ';')

/-- The value of a digit in base 16; both cases of the letters (DESIGN CHOICE, log entry 9). -/
def hexDigit (c : Char) : Option Nat :=
  if '0' ≤ c ∧ c ≤ '9' then some (c.toNat - '0'.toNat)
  else if 'a' ≤ c ∧ c ≤ 'f' then some (c.toNat - 'a'.toNat + 10)
  else if 'A' ≤ c ∧ c ≤ 'F' then some (c.toNat - 'A'.toNat + 10)
  else none

/-- The value of digits in a base, continuing from a value. -/
def digitsValue (base : Nat) : List Char → Nat → Option Nat
  | [], acc => some acc
  | c :: cs, acc =>
    match hexDigit c with
    | some d => if d < base then digitsValue base cs (acc * base + d) else none
    | none => none

/-- R92: a decimal numeral or a `0x` hexadecimal numeral, with at least one digit. -/
def numeralValue : List Char → Option Nat
  | [] => none
  | '0' :: 'x' :: [] => none
  | '0' :: 'x' :: cs => digitsValue 16 cs 0
  | cs => digitsValue 10 cs 0

/-- R92: a numeral above 255 is an assembly error. -/
def asmOperand (l : List Char) : Option Byte :=
  match numeralValue l with
  | some n => if n ≤ 255 then some (BitVec.ofNat 8 n) else none
  | none => none

/-- The parts of a text between commas. -/
def splitCommas : List Char → List (List Char)
  | [] => [[]]
  | c :: cs =>
    match splitCommas cs with
    | [] => [[c]]
    | p :: ps => if c == ',' then [] :: p :: ps else (c :: p) :: ps

/-- The operands of a command, if each is one. -/
def asmOperands : List (List Char) → Option (List Byte)
  | [] => some []
  | p :: ps =>
    match asmOperand (trimBlanks p), asmOperands ps with
    | some b, some bs => some (b :: bs)
    | _, _ => none

/-- R84: the mnemonic of a command. -/
def Instr.mnemonic : Instr → List Char
  | .enable => ['E', 'N', 'A', 'B', 'L', 'E']
  | .disable => ['D', 'I', 'S', 'A', 'B', 'L', 'E']
  | .setTarget _ => ['S', 'E', 'T', '_', 'T', 'A', 'R', 'G', 'E', 'T']
  | .setPrescale _ => ['S', 'E', 'T', '_', 'P', 'R', 'E', 'S', 'C', 'A', 'L', 'E']
  | .configDuty _ _ => ['C', 'O', 'N', 'F', 'I', 'G', '_', 'D', 'U', 'T', 'Y']
  | .presetA _ => ['P', 'R', 'E', 'S', 'E', 'T', '_', 'A']
  | .presetB _ => ['P', 'R', 'E', 'S', 'E', 'T', '_', 'B']
  | .bind _ => ['B', 'I', 'N', 'D']
  | .unbind _ => ['U', 'N', 'B', 'I', 'N', 'D']
  | .setup _ => ['S', 'E', 'T', 'U', 'P']
  | .close _ => ['C', 'L', 'O', 'S', 'E']

/-- R92: the commands with a given list of operands, in the order of the source's call. -/
def commandsWith : List Byte → List Instr
  | [] => [.enable, .disable]
  | [a] => [.setTarget a, .setPrescale a, .presetA a, .presetB a, .bind a, .unbind a, .setup a, .close a]
  | [a, b] => [.configDuty a b]
  | _ => []

/-- R92: one line. -/
def assembleLine (line : List Char) : AsmLine :=
  let text := trimBlanks (dropComment line)
  let name := text.takeWhile (fun c => !isBlankChar c)
  let rest := trimBlanks (text.drop name.length)
  if text.isEmpty then .blank
  else
    match asmOperands (if rest.isEmpty then [] else splitCommas rest) with
    | none => .error
    | some ops =>
      match (commandsWith ops).find? (fun i => i.mnemonic == name) with
      | some i => .command i
      | none => .error

/-- R92: the command stream of a text, one command per line; none if a line is in error. -/
def assemble : List (List Char) → Option (List Word)
  | [] => some []
  | line :: lines =>
    match assembleLine line, assemble lines with
    | .blank, some ws => some ws
    | .command i, some ws => some (encode i :: ws)
    | _, _ => none

/-- A decimal digit. -/
def decimalDigit (n : Nat) : Char := Char.ofNat ('0'.toNat + n % 10)

/-- The decimal numeral of an operand. -/
def decimalNumeral (b : Byte) : List Char :=
  let n := b.toNat
  if n < 10 then [decimalDigit n]
  else if n < 100 then [decimalDigit (n / 10), decimalDigit n]
  else [decimalDigit (n / 100), decimalDigit (n / 10), decimalDigit n]

/-- The operands of a command, in the order of the source's call. -/
def Instr.operands : Instr → List Byte
  | .enable => []
  | .disable => []
  | .setTarget a => [a]
  | .setPrescale a => [a]
  | .configDuty a b => [a, b]
  | .presetA a => [a]
  | .presetB a => [a]
  | .bind a => [a]
  | .unbind a => [a]
  | .setup a => [a]
  | .close a => [a]

/-- R92: the line of a command. -/
def Instr.asmLine (i : Instr) : List Char :=
  match i.operands.map decimalNumeral with
  | [] => i.mnemonic
  | [a] => i.mnemonic ++ ' ' :: a
  | a :: b :: _ => i.mnemonic ++ ' ' :: a ++ ',' :: ' ' :: b

end Sys2Proof
end

