-- ==== Sys2Proof/Machine/Views.lean ====
section
/-! DEFINITION. The views of 10_state.md R32, R33, the port's status output (30_encoding.md R81) and the informative
output frequency (42_parameter_converter.md R123). No step reads them. -/

namespace Sys2Proof.Machine

/-- R32 -/
def State.sdTarget (s : State) : Byte := targetField s.sdReg
/-- R32 -/
def State.sdPrescale (s : State) : Byte := prescaleField s.sdReg
/-- R32 -/
def State.sdEnable (s : State) : Bool := enableField s.sdReg

/-- R27: the source-select bit of pin `n`; false for a number that names no pin. -/
def State.srcSelected (s : State) (n : Nat) : Bool :=
  match s.pinCtrl[n]? with
  | some w => w.getLsbD s.cfg.srcBit.val
  | none => false

/-- R29: the output-enable of pin `n`. -/
def State.outputEnabled (s : State) (n : Nat) : Bool := s.outEn.getLsbD n

/-- R33: `bound(n)` exactly when `PIN_CTRL[n][SRC_BIT] = 1` and `OUT_EN[n] = 1`. -/
def State.bound (s : State) (n : Nat) : Bool := s.srcSelected n && s.outputEnabled n

/-- R81: the status output shows `busy` and the fault record. -/
structure Status where
  busy : Bool
  fault : FaultRecord
  deriving DecidableEq, Repr

/-- R81 -/
def State.status (s : State) : Status := ⟨s.busy, s.fault⟩

/-- R123: `F_BASE / (prescale + 1) * fold(target) / 256`, over the rationals. The source has not verified it (R122). -/
def freq (base : Rat) (target prescale : Byte) : Rat :=
  base / (prescale.toNat + 1) * fold target / 256

/-- R123: the frequency the register contents stand for. What the pins show while `enable = 0` is not in the source. -/
def State.freq (s : State) : Rat := Machine.freq s.cfg.fBase s.sdTarget s.sdPrescale

end Sys2Proof.Machine
end

