-- ==== Sys2Proof/WellFormed.lean ====
section
/-! DEFINITION. The checks on data that comes from outside the block: the constraints of 00_scope.md R9 on a
configuration, and the operand ranges of 30_encoding.md R89 on a command. Each check has an ill-formed term in the tests. -/

namespace Sys2Proof

/-- R9: `1 ≤ NPINS ≤ 32`. -/
abbrev Cfg.PinCountOk (c : Cfg) : Prop := 1 ≤ c.npins ∧ c.npins ≤ 32

/-- R9: every address is a multiple of 4. -/
abbrev Cfg.AlignedOk (c : Cfg) : Prop := c.addrs.all (fun a => a.toNat % 4 == 0) = true

/-- R9: all the addresses named in the table are pairwise distinct. -/
abbrev Cfg.DistinctOk (c : Cfg) : Prop := c.addrs.Nodup

/-- R9: `GPIO_FUNC_BITS(n) & ~FUNC_FIELD_MASK = 0`. -/
abbrev Cfg.FuncBitsOk (c : Cfg) : Prop := ∀ p ∈ c.pins, p.funcBits &&& ~~~c.funcMask = 0#32

/-- R9: `F_BASE` is positive. -/
abbrev Cfg.BaseOk (c : Cfg) : Prop := 0 < c.fBase

/-- R9: the constraints on a configuration. -/
abbrev Cfg.Wf (c : Cfg) : Prop :=
  c.PinCountOk ∧ c.AlignedOk ∧ c.DistinctOk ∧ c.FuncBitsOk ∧ c.BaseOk

/-- R31, R155: a pin operand names a pin. -/
abbrev PinOk (c : Cfg) (pin : Byte) : Prop := pin.toNat < c.npins

/-- R156: the multiplier selects a frequency class. -/
abbrev MultOk (m : Byte) : Prop := m.toNat ≠ 0

/-- R157: the computed prescale fits its field. -/
abbrev PrescaleOk (duty m : Byte) : Prop := m.toNat * fold duty ≤ 256

/-- R89, R150: the operands of a command are in range; such a command never faults. -/
abbrev Instr.Wf (c : Cfg) : Instr → Prop
  | .enable => True
  | .disable => True
  | .setTarget _ => True
  | .setPrescale _ => True
  | .configDuty duty m => MultOk m ∧ PrescaleOk duty m
  | .presetA _ => True
  | .presetB _ => True
  | .bind pin => PinOk c pin
  | .unbind pin => PinOk c pin
  | .setup pin => PinOk c pin
  | .close pin => PinOk c pin

end Sys2Proof
end

