-- ==== Sys2Proof/Safety.lean ====
section
/-! DEFINITION. The terms claims use: well-formed states, what the other agents do, and what a safe run is
(00_scope.md R18, R19). -/

namespace Sys2Proof.Machine

/-- R9, R27, R28: the configuration meets its constraints and there is one register of each kind per pin. -/
abbrev State.Wf (s : State) : Prop :=
  s.cfg.Wf ∧ s.pinCtrl.length = s.cfg.npins ∧ s.func.length = s.cfg.npins

/-- R34, R152, R159: a command in flight has not run past its end; one that faults has made no access. -/
abbrev State.FlightOk (s : State) : Prop := s.busy = true → s.upc ≤ (wordPlan s.cfg s.curCmd).length

/-- R35, R151, R153: an empty record is all zero, a valid one holds one of the four causes. -/
abbrev FaultRecord.Wf (f : FaultRecord) : Prop :=
  if f.valid then 1 ≤ f.cause.toNat ∧ f.cause.toNat ≤ 4 else f = ⟨false, 0#3, 0#32⟩

/-- R37: one answer per command, and no command past the end of the stream. -/
abbrev State.HostOk (s : State) : Prop :=
  s.responses.length = s.pc ∧ s.pc ≤ s.stream.length ∧ (s.busy = true → s.pc < s.stream.length)

/-- What holds of the machine between any two micro-steps. -/
abbrev State.Inv (s : State) : Prop :=
  s.Wf ∧ s.FlightOk ∧ s.fault.Wf ∧ s.HostOk

/-- R59: an access some step exists for. -/
def BusAccess.lawful (c : Cfg) (a : BusAccess) : Bool :=
  a.wholeWord &&
    match locate c a.addr, a.op with
    | none, _ => false
    | some .outEnSet, .read => false
    | some .outEnClr, .read => false
    | some _, _ => true

/-- R51, R59: every access in the rest of the order is one some step exists for. -/
abbrev State.Lawful (s : State) : Prop :=
  ∀ a : BusAccess, Turn.agent a ∈ s.sched → a.lawful s.cfg = true

/-- R19, R62: no other agent acts up to the block's `n`-th next action (an access, or the answer that ends a command). -/
abbrev State.QuietFor (s : State) (n : Nat) : Prop := ∀ t ∈ s.sched.take n, t = Turn.block

/-- R57: the access stores to the register read at `addr`; the two ports store to `OUT_EN`. -/
abbrev BusAccess.StoresTo (c : Cfg) (a : BusAccess) (addr : Word) : Prop :=
  (∃ v, a.op = .write v) ∧
    (a.addr = addr ∨ (addr = c.outEnAddr ∧ (a.addr = c.outEnSetAddr ∨ a.addr = c.outEnClrAddr)))

/-- No access of an other agent in the rest of the order stores to the register read at `addr`. -/
abbrev State.AgentsLeave (s : State) (addr : Word) : Prop :=
  ∀ a : BusAccess, Turn.agent a ∈ s.sched → ¬ a.StoresTo s.cfg addr

/-- R18: a run in which the fault record is valid is a faulted run; claims take its absence as a premise. -/
abbrev State.FaultFree (s : State) : Prop := s.fault.valid = false

/-- R94: what no command changes: the configuration, and the host's stream. -/
abbrev SameInputs (s t : State) : Prop := t.cfg = s.cfg ∧ t.stream = s.stream

/-- R194: the accesses of the block in a trace. -/
def blockAccesses (tr : List Access) : List Access := tr.filter (fun a => a.agent == .block)

/-- The accesses a state has made since another. -/
def newAccesses (s t : State) : List Access := t.trace.drop s.trace.length

/-- R81 (4): what every command that ends `OK` leaves besides the registers it writes: `n` micro-steps made, the word last read
in `tmp`, the accesses in the trace, the answer 0, the block idle, the host's index one further; a turn used for each micro-step
and for the answer. -/
def State.afterCommand (s : State) (n : Nat) (tmp : Word) (acc : List Access) : State :=
  { s with busy := false, upc := n, tmp := tmp, pc := s.pc + 1, sched := s.sched.drop (n + 1),
           responses := s.responses ++ [0#4], trace := s.trace ++ acc }

/-- R152: what every faulting command leaves: no register, no access, no micro-step; the record if it was empty; the code
as the answer; the block idle, the host's index one further; a turn used for the answer. -/
def State.afterFault (s : State) (code : BitVec 3) (cmd : Word) : State :=
  { s with busy := false, pc := s.pc + 1, responses := s.responses ++ [code.setWidth 4],
           fault := if s.fault.valid then s.fault else ⟨true, code, cmd⟩, sched := s.sched.drop 1 }

/-- The block reads `v` at an address. -/
abbrev rd (addr v : Word) : Access := ⟨.block, .read, addr, v⟩

/-- The block writes `v` to an address. -/
abbrev wr (addr v : Word) : Access := ⟨.block, .write, addr, v⟩

/-- The end of a conversion with prescale `p`: SET_TARGET duty, then SET_PRESCALE p (R125). -/
def convertedTo (s : State) (duty p : Byte) : State :=
  let v1 := (s.sdReg &&& 0xFFFFFF00#32) ||| duty.setWidth 32
  let v2 := (v1 &&& 0xFFFF00FF#32) ||| (p.setWidth 32 <<< 8)
  { s.afterCommand 4 v1
      [rd s.cfg.sdAddr s.sdReg, wr s.cfg.sdAddr v1, rd s.cfg.sdAddr v1, wr s.cfg.sdAddr v2] with sdReg := v2 }

/-- R14, R63: the accesses of the block, in the order of the pseudocode of each command. -/
def accessOrder (c : Cfg) (p : PinCfg) : Instr → List (Dir × Word)
  | .enable => [(.read, c.sdAddr), (.write, c.sdAddr)]
  | .disable => [(.read, c.sdAddr), (.write, c.sdAddr)]
  | .setTarget _ => [(.read, c.sdAddr), (.write, c.sdAddr)]
  | .setPrescale _ => [(.read, c.sdAddr), (.write, c.sdAddr)]
  | .configDuty _ _ => [(.read, c.sdAddr), (.write, c.sdAddr), (.read, c.sdAddr), (.write, c.sdAddr)]
  | .presetA _ => [(.read, c.sdAddr), (.write, c.sdAddr), (.read, c.sdAddr), (.write, c.sdAddr)]
  | .presetB _ => [(.read, c.sdAddr), (.write, c.sdAddr), (.read, c.sdAddr), (.write, c.sdAddr)]
  | .bind _ => [(.read, p.funcAddr), (.write, p.funcAddr), (.read, p.ctrlAddr), (.write, p.ctrlAddr),
      (.write, c.outEnSetAddr)]
  | .unbind _ => [(.write, c.outEnClrAddr), (.read, p.ctrlAddr), (.write, p.ctrlAddr)]
  | .setup _ => [(.read, c.sdAddr), (.write, c.sdAddr), (.read, p.funcAddr), (.write, p.funcAddr),
      (.read, p.ctrlAddr), (.write, p.ctrlAddr), (.write, c.outEnSetAddr)]
  | .close _ => [(.write, c.outEnClrAddr), (.read, p.ctrlAddr), (.write, p.ctrlAddr), (.read, c.sdAddr),
      (.write, c.sdAddr)]

/-- The pin a command names, if it names one. -/
def pinOperand : Instr → Option Byte
  | .bind pin => some pin
  | .unbind pin => some pin
  | .setup pin => some pin
  | .close pin => some pin
  | .enable => none
  | .disable => none
  | .setTarget _ => none
  | .setPrescale _ => none
  | .configDuty _ _ => none
  | .presetA _ => none
  | .presetB _ => none

end Sys2Proof.Machine
end

