-- ==== Sys2Proof/Certificates/Slice0/Obligations.lean ====
section
/-! DEFINITION. The statements for the provers. Each docstring names the rules of spec/ it formalises. -/

open Sys2Proof Sys2Proof.Machine

/-! ### Encoding and decoding -/

/-- R85, R90: the decoder reads back every command from its word, at every value of every operand. -/
def Obligations.DecodeInvertsEncode : Prop := ∀ i : Instr, decode (encode i) = .ok i

/-- R84, R90: a legal word is the encoding of the command it decodes to, so no bit of a legal word is ignored. -/
def Obligations.EncodeInvertsDecode : Prop := ∀ (w : Word) (i : Instr), decode w = .ok i → encode i = w

/-- R84, R88: a word is legal exactly when it matches one row of the table under that row's mask, and never two. -/
def Obligations.LegalWordsAreTheTableRows : Prop :=
  ∀ w : Word,
    ((∃ i, decode w = .ok i) ↔ ∃ r ∈ opRows, r.selects w = true) ∧
    (opRows.filter (fun r => r.selects w)).length ≤ 1

/-- R90: the decode procedure, arm by arm, with `op = cmd[31:24]`, `z = cmd[23:16]`, `b = cmd[15:8]`, `a = cmd[7:0]`. -/
def Obligations.DecodeProcedure : Prop :=
  ∀ (w : Word) (op z b a : Byte), op = w.extractLsb' 24 8 → z = w.extractLsb' 16 8 → b = w.extractLsb' 8 8 →
    a = w.extractLsb' 0 8 →
    (z ≠ 0#8 → ∀ i, decode w ≠ .ok i) ∧
    (z = 0#8 → op = 0x01#8 → (decode w = .ok .enable ↔ a = 0#8 ∧ b = 0#8)) ∧
    (z = 0#8 → op = 0x02#8 → (decode w = .ok .disable ↔ a = 0#8 ∧ b = 0#8)) ∧
    (z = 0#8 → op = 0x05#8 → decode w = .ok (.configDuty a b)) ∧
    (z = 0#8 → op = 0x03#8 → (decode w = .ok (.setTarget a) ↔ b = 0#8)) ∧
    (z = 0#8 → op = 0x04#8 → (decode w = .ok (.setPrescale a) ↔ b = 0#8)) ∧
    (z = 0#8 → op = 0x06#8 → (decode w = .ok (.presetA a) ↔ b = 0#8)) ∧
    (z = 0#8 → op = 0x07#8 → (decode w = .ok (.presetB a) ↔ b = 0#8)) ∧
    (z = 0#8 → op = 0x08#8 → (decode w = .ok (.bind a) ↔ b = 0#8)) ∧
    (z = 0#8 → op = 0x09#8 → (decode w = .ok (.unbind a) ↔ b = 0#8)) ∧
    (z = 0#8 → op = 0x0A#8 → (decode w = .ok (.setup a) ↔ b = 0#8)) ∧
    (z = 0#8 → op = 0x0B#8 → (decode w = .ok (.close a) ↔ b = 0#8)) ∧
    (op = 0x00#8 ∨ 0x0C#8 ≤ op → ∀ i, decode w ≠ .ok i) ∧
    (op ≠ 0x05#8 → b ≠ 0#8 → ∀ i, decode w ≠ .ok i) ∧
    (op = 0x01#8 ∨ op = 0x02#8 → a ≠ 0#8 → ∀ i, decode w ≠ .ok i)

/-- R90: the number of legal words is 67586. -/
def Obligations.LegalWordCount : Prop := Nat.card { w : Word // ∃ i, decode w = .ok i } = 67586

/-- Words of 95_test_vectors.md section 2.1 (V-E1 to V-E11, V-E13, V-E15, V-E18) and what they decode to. -/
def Obligations.DecodedVectorWords : Prop :=
  decode 0x01000000#32 = .ok .enable ∧ decode 0x02000000#32 = .ok .disable ∧
  decode 0x030000C8#32 = .ok (.setTarget 200#8) ∧ decode 0x0400006F#32 = .ok (.setPrescale 111#8) ∧
  decode 0x050002C8#32 = .ok (.configDuty 200#8 2#8) ∧ decode 0x06000002#32 = .ok (.presetA 2#8) ∧
  decode 0x070000C8#32 = .ok (.presetB 200#8) ∧ decode 0x08000004#32 = .ok (.bind 4#8) ∧
  decode 0x09000004#32 = .ok (.unbind 4#8) ∧ decode 0x0A000004#32 = .ok (.setup 4#8) ∧
  decode 0x0B000004#32 = .ok (.close 4#8) ∧ decode 0xFFFFFFFF#32 = .error .zNonzero ∧
  decode 0x01000001#32 = .error .operandNonzero ∧ decode 0x030001C8#32 = .error .operandNonzero

/-- R92: the line written for a command, with its operands in decimal, is read back as that command, and a stream of such
lines is assembled to the words of the commands. That blanks separate is the model's choice (log entry 9). -/
def Obligations.AssemblyReadsBackEveryCommand : Prop :=
  (∀ i : Instr, assembleLine i.asmLine = .command i) ∧
  ∀ is : List Instr, assemble (is.map Instr.asmLine) = some (is.map encode)

/-! ### A step of the machine -/

/-- R81: when the block is idle, the host presents a word that decodes to a command, and no other agent acts first, the step is
that command from the state in which the word has been sampled: busy, the word in flight, no micro-step made, one turn of the
block used. That one step is one whole command, and that sampling is a turn, is the model's choice (log entries 4 and 7). -/
def Obligations.StepRunsTheDecodedCommand : Prop :=
  ∀ (s : State) (w : Word) (i : Instr), s.busy = false → (∀ a r, s.sched ≠ .agent a :: r) →
    s.stream[s.pc]? = some w → decode w = .ok i →
    step s = exec i { s with busy := true, curCmd := w, upc := 0, sched := s.sched.tail }

/-- R81: the word placed for the next step is the one it runs, whatever the state before. That a placed word is the host's
next word, makes the block idle and is sampled before any other agent acts is the model's choice (log entry 3). -/
def Obligations.PlacedWordRunsNext : Prop :=
  ∀ (s : State) (w : Word) (i : Instr), decode w = .ok i →
    step (s.withFetchWord 32 w.toNat) = exec i { (s.withFetchWord 32 w.toNat).sample w with sched := s.sched } ∧
    (s.withFetchWord 32 w.toNat).sched = .block :: s.sched ∧ (s.withFetchWord 32 w.toNat).pc = s.pc

/-- R87, R88, R152, R154: a word that decodes to nothing takes the fault IllegalCommand (code 1) and touches no register, when
no other agent acts up to its answer. That a fault is a next state (log entry 8), what `curCmd`, `upc` and `tmp` hold in it
(log entry 6), and the two turns used, for sampling and for the answer (log entry 4), are the model's choice. -/
def Obligations.IllegalWordTakesItsFault : Prop :=
  ∀ (s : State) (w : Word), s.busy = false → s.QuietFor 2 → s.stream[s.pc]? = some w → (∀ i, decode w ≠ .ok i) →
    step s = .next ({ s with curCmd := w, upc := 0, sched := s.sched.tail }.afterFault 1#3 w)

/-- R12, R14, R62, R63, R81: a step is a run of micro-steps, each one access of one agent, the sampling or the answer; their
number is bounded by the accesses of a command (R194: at most 7), those of the other agents, and two. (R17 calls only an access a
micro-step; microStep also makes the sampling and the answer.) The step of a whole
command (log entry 7) and the turns of the order (log entry 4) are the model's choice; this says that the step hides no
micro-step. -/
def Obligations.StepIsARunOfMicroSteps : Prop :=
  ∀ s : State, s.portAction ≠ .ended →
    ∃ n, 0 < n ∧ n ≤ s.sched.length + 9 ∧ microRun n s = step s

/-- R18, R37: the run ends exactly when the block is idle, the stream is exhausted and no other agent acts. That the end of
the run is a refusal is the model's choice (log entry 11). -/
def Obligations.RunEndsOnlyWhenTheStreamIsExhausted : Prop :=
  ∀ s : State, step s = .refused .runEnded ↔
    s.busy = false ∧ s.stream.length ≤ s.pc ∧ ∀ a r, s.sched ≠ .agent a :: r

/-- R12: while the block is idle, whether or not the host has a word left, an other bus agent (the host may be one) acts when
the order says so, and no word is sampled by that. That its access is a step of its own is the model's choice (log entry
14). -/
def Obligations.AgentActsWhileTheBlockIsIdle : Prop :=
  ∀ (s : State) (a : BusAccess) (r : List Turn), s.busy = false → s.sched = .agent a :: r →
    step s = busAccess a { s with sched := r }

/-! ### What each command does when no other agent acts up to its answer (R19, R62)

`QuietFor` counts the accesses and the answer. Each names the whole next state. Of it, the values `upc` and `tmp` keep once
the block is idle (log entry 6), the fields `responses` and `trace` (log entry 10), and the turns used (log entry 4) are the
model's choice. -/

/-- R110: ENABLE reads `SD_REG` and writes it with enable 1 and both parameters 0, in one write; the other bits and
everything else stay. -/
def Obligations.EnableResult : Prop :=
  ∀ s : State, s.QuietFor 3 →
    let v := (s.sdReg &&& 0xFFFE0000#32) ||| 0x00010000#32
    exec .enable s = .next { s.afterCommand 2 s.sdReg [rd s.cfg.sdAddr s.sdReg, wr s.cfg.sdAddr v] with sdReg := v } ∧
    enableField v = true ∧ prescaleField v = 0#8 ∧ targetField v = 0#8 ∧ otherField v = otherField s.sdReg

/-- R111: DISABLE reads `SD_REG` and writes it with enable 0 and both parameters 0. -/
def Obligations.DisableResult : Prop :=
  ∀ s : State, s.QuietFor 3 →
    let v := s.sdReg &&& 0xFFFE0000#32
    exec .disable s = .next { s.afterCommand 2 s.sdReg [rd s.cfg.sdAddr s.sdReg, wr s.cfg.sdAddr v] with sdReg := v } ∧
    enableField v = false ∧ prescaleField v = 0#8 ∧ targetField v = 0#8 ∧ otherField v = otherField s.sdReg

/-- R112: SET_TARGET writes the target field only, with the value as given. -/
def Obligations.SetTargetResult : Prop :=
  ∀ (s : State) (value : Byte), s.QuietFor 3 →
    let v := (s.sdReg &&& 0xFFFFFF00#32) ||| value.setWidth 32
    exec (.setTarget value) s =
      .next { s.afterCommand 2 s.sdReg [rd s.cfg.sdAddr s.sdReg, wr s.cfg.sdAddr v] with sdReg := v } ∧
    targetField v = value ∧ prescaleField v = prescaleField s.sdReg ∧ enableField v = enableField s.sdReg ∧
    otherField v = otherField s.sdReg

/-- R113: SET_PRESCALE writes the prescale field only; nothing carries into bit 16. -/
def Obligations.SetPrescaleResult : Prop :=
  ∀ (s : State) (value : Byte), s.QuietFor 3 →
    let v := (s.sdReg &&& 0xFFFF00FF#32) ||| (value.setWidth 32 <<< 8)
    exec (.setPrescale value) s =
      .next { s.afterCommand 2 s.sdReg [rd s.cfg.sdAddr s.sdReg, wr s.cfg.sdAddr v] with sdReg := v } ∧
    prescaleField v = value ∧ targetField v = targetField s.sdReg ∧ enableField v = enableField s.sdReg ∧
    otherField v = otherField s.sdReg

/-- R121, R124, R125: CONFIG_DUTY with a multiplier above 0 and a prescale that fits writes the raw duty to target and
`m * fold(duty) - 1` (0 at duty 0) to prescale, in four accesses, and keeps enable and the other bits. -/
def Obligations.ConfigDutyResult : Prop :=
  ∀ (s : State) (duty m : Byte), s.QuietFor 5 → m.toNat ≠ 0 → m.toNat * fold duty ≤ 256 →
    ∃ p : Byte, p.toNat = (if duty.toNat = 0 then 0 else m.toNat * fold duty - 1) ∧
      exec (.configDuty duty m) s = .next (convertedTo s duty p) ∧
      targetField (convertedTo s duty p).sdReg = duty ∧ prescaleField (convertedTo s duty p).sdReg = p ∧
      enableField (convertedTo s duty p).sdReg = enableField s.sdReg ∧
      otherField (convertedTo s duty p).sdReg = otherField s.sdReg

/-- R126: PRESET_A writes the raw duty and `fold(duty) - 1`, or 0 at a folded value of 0; the prescale is at most 127, and
is 0 exactly for duty 0, 1 and 255. It never faults. -/
def Obligations.PresetAResult : Prop :=
  ∀ (s : State) (duty : Byte), s.QuietFor 5 →
    ∃ p : Byte, p.toNat = (if fold duty = 0 then 0 else fold duty - 1) ∧ p.toNat ≤ 127 ∧
      (p = 0#8 ↔ duty = 0#8 ∨ duty = 1#8 ∨ duty = 255#8) ∧
      exec (.presetA duty) s = .next (convertedTo s duty p) ∧ targetField (convertedTo s duty p).sdReg = duty

/-- R127: PRESET_B writes the raw duty and `2 * fold(duty) - 1`, or 0 at a folded value of 0; the prescale is 0 or odd, and
is 0 exactly for duty 0. It never faults. -/
def Obligations.PresetBResult : Prop :=
  ∀ (s : State) (duty : Byte), s.QuietFor 5 →
    ∃ p : Byte, p.toNat = (if fold duty = 0 then 0 else 2 * fold duty - 1) ∧ (p = 0#8 ∨ p.toNat % 2 = 1) ∧
      (p = 0#8 ↔ duty = 0#8) ∧
      exec (.presetB duty) s = .next (convertedTo s duty p) ∧ targetField (convertedTo s duty p).sdReg = duty

/-- R100: BIND replaces the masked bits of `FUNC[pin]`, sets the source-select bit of `PIN_CTRL[pin]` and the
output-enable of the pin, in five accesses in this order; afterwards the pin is bound. It does not look at `enable`. -/
def Obligations.BindResult : Prop :=
  ∀ (s : State) (pin : Byte) (p : PinCfg) (f c : Word), s.Wf → s.cfg.pins[pin.toNat]? = some p →
    s.func[pin.toNat]? = some f → s.pinCtrl[pin.toNat]? = some c → s.QuietFor 6 →
    let f' := (f &&& ~~~s.cfg.funcMask) ||| p.funcBits
    let c' := c ||| (1#32 <<< s.cfg.srcBit.val)
    ∃ t, exec (.bind pin) s = .next t ∧
      t = { s.afterCommand 5 c
              [rd p.funcAddr f, wr p.funcAddr f', rd p.ctrlAddr c, wr p.ctrlAddr c',
               wr s.cfg.outEnSetAddr (1#32 <<< pin.toNat)] with
            func := s.func.set pin.toNat f'
            pinCtrl := s.pinCtrl.set pin.toNat c'
            outEn := s.outEn ||| (1#32 <<< pin.toNat) } ∧
      t.bound pin.toNat = true

/-- R101: UNBIND clears the output-enable of the pin, then its source-select bit, in three accesses; `FUNC[pin]` and
`SD_REG` are not touched, and the pin is not bound afterwards. -/
def Obligations.UnbindResult : Prop :=
  ∀ (s : State) (pin : Byte) (p : PinCfg) (c : Word), s.Wf → s.cfg.pins[pin.toNat]? = some p →
    s.pinCtrl[pin.toNat]? = some c → s.QuietFor 4 →
    let c' := c &&& ~~~(1#32 <<< s.cfg.srcBit.val)
    ∃ t, exec (.unbind pin) s = .next t ∧
      t = { s.afterCommand 3 c
              [wr s.cfg.outEnClrAddr (1#32 <<< pin.toNat), rd p.ctrlAddr c, wr p.ctrlAddr c'] with
            pinCtrl := s.pinCtrl.set pin.toNat c'
            outEn := s.outEn &&& ~~~(1#32 <<< pin.toNat) } ∧
      t.bound pin.toNat = false

/-- R140: SETUP is the two accesses of ENABLE and then the five of BIND. -/
def Obligations.SetupResult : Prop :=
  ∀ (s : State) (pin : Byte) (p : PinCfg) (f c : Word), s.Wf → s.cfg.pins[pin.toNat]? = some p →
    s.func[pin.toNat]? = some f → s.pinCtrl[pin.toNat]? = some c → s.QuietFor 8 →
    let v := (s.sdReg &&& 0xFFFE0000#32) ||| 0x00010000#32
    let f' := (f &&& ~~~s.cfg.funcMask) ||| p.funcBits
    let c' := c ||| (1#32 <<< s.cfg.srcBit.val)
    ∃ t, exec (.setup pin) s = .next t ∧
      t = { s.afterCommand 7 c
              [rd s.cfg.sdAddr s.sdReg, wr s.cfg.sdAddr v, rd p.funcAddr f, wr p.funcAddr f', rd p.ctrlAddr c,
               wr p.ctrlAddr c', wr s.cfg.outEnSetAddr (1#32 <<< pin.toNat)] with
            sdReg := v
            func := s.func.set pin.toNat f'
            pinCtrl := s.pinCtrl.set pin.toNat c'
            outEn := s.outEn ||| (1#32 <<< pin.toNat) } ∧
      t.bound pin.toNat = true ∧ t.sdEnable = true

/-- R141: CLOSE is the three accesses of UNBIND and then the two of DISABLE. -/
def Obligations.CloseResult : Prop :=
  ∀ (s : State) (pin : Byte) (p : PinCfg) (c : Word), s.Wf → s.cfg.pins[pin.toNat]? = some p →
    s.pinCtrl[pin.toNat]? = some c → s.QuietFor 6 →
    let v := s.sdReg &&& 0xFFFE0000#32
    let c' := c &&& ~~~(1#32 <<< s.cfg.srcBit.val)
    ∃ t, exec (.close pin) s = .next t ∧
      t = { s.afterCommand 5 s.sdReg
              [wr s.cfg.outEnClrAddr (1#32 <<< pin.toNat), rd p.ctrlAddr c, wr p.ctrlAddr c',
               rd s.cfg.sdAddr s.sdReg, wr s.cfg.sdAddr v] with
            sdReg := v
            pinCtrl := s.pinCtrl.set pin.toNat c'
            outEn := s.outEn &&& ~~~(1#32 <<< pin.toNat) } ∧
      t.bound pin.toNat = false ∧ t.sdEnable = false

/-! ### Any interleaving of the other agents -/

/-- R150, R159, R62, R194: a command whose operands are in range ends `OK`, whatever accesses the other agents make
between its micro-steps, as long as each is one some step exists for. That the idle block keeps the word
in `curCmd` (log entry 6) and the list of answers (log entry 10) are the model's choice. -/
def Obligations.InRangeCommandCompletesUnderAnySchedule : Prop :=
  ∀ (i : Instr) (s : State), s.Wf → s.Lawful → i.Wf s.cfg →
    ∃ t, exec i s = .next t ∧ t.responses = s.responses ++ [0#4] ∧ t.busy = false ∧ t.pc = s.pc + 1 ∧
      t.fault = s.fault ∧ t.curCmd = s.curCmd ∧ SameInputs s t

/-- R63, R102, R103, R129, R194: whatever the other agents do in between, the block's own accesses during a command in range
are those of its pseudocode, in that order, none merged, dropped or added. The list they are recorded in is the model's (log
entry 10). -/
def Obligations.BlockAccessesKeepProgramOrder : Prop :=
  ∀ (i : Instr) (s t : State) (p : PinCfg), i.Wf s.cfg →
    (∀ pin, pinOperand i = some pin → s.cfg.pins[pin.toNat]? = some p) → exec i s = .next t →
    (blockAccesses (newAccesses s t)).map (fun a => (a.dir, a.addr)) = accessOrder s.cfg p i

/-- R23: whatever the other agents do in between, every write the block makes to `SD_REG` follows at once, among the block's
own accesses, its read of `SD_REG`, and carries the bits 31:17 of the word that read returned. The list they are recorded in is
the model's (log entry 10). -/
def Obligations.BlockPreservesOtherBits : Prop :=
  ∀ (i : Instr) (s t : State) (k : Nat) (d : Word), s.Wf → exec i s = .next t →
    (blockAccesses (newAccesses s t))[k]? = some (wr s.cfg.sdAddr d) →
    ∃ j r, k = j + 1 ∧ (blockAccesses (newAccesses s t))[j]? = some (rd s.cfg.sdAddr r) ∧
      otherField d = otherField r

/-- R12, R61, R64: once a word has been sampled, the accesses of other agents that stand before the block's next action are
made first, and then the command runs, also one that faults. That they are made within the command's step is the model's
choice (log entries 7 and 14). -/
def Obligations.EarlierAccessesComeFirst : Prop :=
  ∀ (i : Instr) (s : State) (a : BusAccess) (r : List Turn), s.sched = .agent a :: r →
    exec i s = andThen (busAccess a { s with sched := r }) (exec i)

/-- R61, R115: ENABLE, DISABLE, SET_TARGET and SET_PRESCALE compute the word they write from the word they have read. Let the
other agents make any defined accesses `pre` before the read and `window` between the read and the write: the command, which
answers before they act again, answers 0, the block makes the same two accesses with the same data, and `SD_REG` ends in all
32 bits as if those in the window had not been made, though each was made. The order as a list of turns, in which the answer has
one, and that the rest `r` of it is left over (log entry 4), and the lists of answers and of accesses, whose length shows that
each was made (log entry 10), are the model's choice. -/
def Obligations.UpdateBetweenReadAndWriteIsLost : Prop :=
  ∀ (i : Instr) (s : State) (pre window : List BusAccess) (r : List Turn),
    (i = .enable ∨ i = .disable ∨ (∃ v, i = .setTarget v) ∨ ∃ v, i = .setPrescale v) →
    s.Wf → (∀ a ∈ pre ++ window, a.lawful s.cfg = true) →
    s.sched = pre.map .agent ++ .block :: (window.map .agent ++ .block :: .block :: r) →
    ∃ t u, exec i s = .next t ∧ exec i { s with sched := pre.map .agent ++ .block :: .block :: .block :: r } = .next u ∧
      t.sdReg = u.sdReg ∧ t.responses = s.responses ++ [0#4] ∧ t.sched = r ∧
      blockAccesses (newAccesses s t) = blockAccesses (newAccesses s u) ∧
      t.trace.length = u.trace.length + window.length

/-- R61, R106: a write of `PIN_CTRL[pin]` by an other agent between BIND's read and write of it is lost, and so is one of
`FUNC[pin]`. The order as a list of turns, in which the answer has one, is the model's choice (log entry 4). -/
def Obligations.BindOverwritesConcurrentPinWrites : Prop :=
  ∀ (s : State) (pin : Byte) (p : PinCfg) (f c x y : Word) (r : List Turn), s.Wf →
    s.cfg.pins[pin.toNat]? = some p → s.func[pin.toNat]? = some f → s.pinCtrl[pin.toNat]? = some c →
    s.sched = .block :: .agent ⟨.write x, p.funcAddr, .word⟩ :: .block :: .block ::
      .agent ⟨.write y, p.ctrlAddr, .word⟩ :: .block :: .block :: .block :: r →
    ∃ t, exec (.bind pin) s = .next t ∧ t.func[pin.toNat]? = some ((f &&& ~~~s.cfg.funcMask) ||| p.funcBits) ∧
      t.pinCtrl[pin.toNat]? = some (c ||| (1#32 <<< s.cfg.srcBit.val))

/-- R57, R66: the output-enable step of BIND and of UNBIND loses no other agent's update of another pin's bit: a set or a
clear made through a port just before it stays, for both commands. The order as a list of turns, in which the answer has one, is
the model's choice (log entry 4). -/
def Obligations.OutputEnableStepLosesNoUpdate : Prop :=
  ∀ (s : State) (pin : Byte) (x : Word) (r : List Turn), s.Wf → PinOk s.cfg pin →
    (s.sched = .block :: .block :: .block :: .block :: .agent ⟨.write x, s.cfg.outEnSetAddr, .word⟩ ::
        .block :: .block :: r →
      ∃ t, exec (.bind pin) s = .next t ∧ t.outEn = (s.outEn ||| x) ||| (1#32 <<< pin.toNat)) ∧
    (s.sched = .block :: .block :: .block :: .block :: .agent ⟨.write x, s.cfg.outEnClrAddr, .word⟩ ::
        .block :: .block :: r →
      ∃ t, exec (.bind pin) s = .next t ∧ t.outEn = (s.outEn &&& ~~~x) ||| (1#32 <<< pin.toNat)) ∧
    (s.sched = .agent ⟨.write x, s.cfg.outEnSetAddr, .word⟩ :: .block :: .block :: .block :: .block :: r →
      ∃ t, exec (.unbind pin) s = .next t ∧ t.outEn = (s.outEn ||| x) &&& ~~~(1#32 <<< pin.toNat)) ∧
    (s.sched = .agent ⟨.write x, s.cfg.outEnClrAddr, .word⟩ :: .block :: .block :: .block :: .block :: r →
      ∃ t, exec (.unbind pin) s = .next t ∧ t.outEn = (s.outEn &&& ~~~x) &&& ~~~(1#32 <<< pin.toNat))

/-- R86, R140, R141: for a pin in range and any interleaving, SETUP leaves the registers and makes the accesses that ENABLE
and then BIND do, and CLOSE those of UNBIND and then DISABLE. The two commands answer twice, so the order they run under holds
one more turn of the block, for the answer of the first; it is otherwise the same. That an answer takes a turn of the order, and
so the turn put in and the order left over (`v.sched = t.sched`), is the model's choice (log entry 4), and so is the list the
accesses are recorded in (log entry 10). -/
def Obligations.CompositesAreTheirTwoCommands : Prop :=
  ∀ (s t : State) (pin : Byte), PinOk s.cfg pin →
    (exec (.setup pin) s = .next t →
      ∃ pre post u v, s.sched = pre ++ post ∧ exec .enable { s with sched := pre ++ .block :: post } = .next u ∧
        exec (.bind pin) u = .next v ∧ v.sdReg = t.sdReg ∧
        v.pinCtrl = t.pinCtrl ∧ v.func = t.func ∧ v.outEn = t.outEn ∧ v.trace = t.trace ∧ v.sched = t.sched) ∧
    (exec (.close pin) s = .next t →
      ∃ pre post u v, s.sched = pre ++ post ∧ exec (.unbind pin) { s with sched := pre ++ .block :: post } = .next u ∧
        exec .disable u = .next v ∧ v.sdReg = t.sdReg ∧
        v.pinCtrl = t.pinCtrl ∧ v.func = t.func ∧ v.outEn = t.outEn ∧ v.trace = t.trace ∧ v.sched = t.sched)

/-! ### Frames, under any interleaving -/

/-- R22, R58, R94: the commands of the modulator and the converter store to `SD_REG` alone: every register read at another
address is unchanged unless an other agent stores to it, and so are the configuration, the stream, the word in flight and,
for a command in range, the fault record. That the idle block keeps the word in `curCmd`, which R34 leaves open, is the
model's choice (log entry 6). -/
def Obligations.ModulatorAndConverterFrame : Prop :=
  ∀ (i : Instr) (s t : State) (addr : Word),
    (i = .enable ∨ i = .disable ∨ (∃ v, i = .setTarget v) ∨ (∃ v, i = .setPrescale v) ∨
      (∃ d m, i = .configDuty d m) ∨ (∃ d, i = .presetA d) ∨ ∃ d, i = .presetB d) →
    s.Wf → exec i s = .next t →
    (addr ≠ s.cfg.sdAddr → s.AgentsLeave addr → t.memRead addr = s.memRead addr) ∧
    (i.Wf s.cfg → t.fault = s.fault) ∧ t.curCmd = s.curCmd ∧ SameInputs s t

/-- R100, R101, R105: BIND and UNBIND store to the registers of their own pin and to `OUT_EN`: BIND to `FUNC[pin]` and
`PIN_CTRL[pin]`, UNBIND to `PIN_CTRL[pin]` alone; every register read at another address is unchanged unless an other agent
stores to it. -/
def Obligations.PinBinderFrame : Prop :=
  ∀ (s t : State) (pin : Byte) (addr : Word), s.Wf → addr ≠ s.cfg.outEnAddr → s.AgentsLeave addr →
    (∀ p, s.cfg.pins[pin.toNat]? = some p → addr ≠ p.ctrlAddr) →
    (exec (.unbind pin) s = .next t → t.memRead addr = s.memRead addr) ∧
    ((∀ p, s.cfg.pins[pin.toNat]? = some p → addr ≠ p.funcAddr) → exec (.bind pin) s = .next t →
      t.memRead addr = s.memRead addr)

/-- R140, R141: SETUP stores besides to `SD_REG`, CLOSE to `SD_REG` but not to `FUNC[pin]`; every register read at another
address is unchanged unless an other agent stores to it. -/
def Obligations.CompositeFrame : Prop :=
  ∀ (s t : State) (pin : Byte) (addr : Word), s.Wf → addr ≠ s.cfg.outEnAddr → addr ≠ s.cfg.sdAddr →
    s.AgentsLeave addr → (∀ p, s.cfg.pins[pin.toNat]? = some p → addr ≠ p.ctrlAddr) →
    (exec (.close pin) s = .next t → t.memRead addr = s.memRead addr) ∧
    ((∀ p, s.cfg.pins[pin.toNat]? = some p → addr ≠ p.funcAddr) → exec (.setup pin) s = .next t →
      t.memRead addr = s.memRead addr)

/-- R94, R152: the pin commands leave the configuration, the stream and, for a pin in range, the fault record. That the idle
block also keeps the word in `curCmd`, which R34 leaves open, is the model's choice (log entry 6). -/
def Obligations.PinCommandsLeaveTheRest : Prop :=
  ∀ (i : Instr) (s t : State) (pin : Byte), pinOperand i = some pin → exec i s = .next t →
    (PinOk s.cfg pin → t.fault = s.fault) ∧ t.curCmd = s.curCmd ∧ SameInputs s t

/-! ### Faults -/

/-! The next state of a command that faults is given whole, for a run in which no other agent acts before the answer. That a
fault is a next state (log entry 8), that the idle block keeps `curCmd`, `upc` and `tmp` (log entry 6), and that the answer
uses one turn of the order and nothing else of it (log entries 4 and 14) are the model's choice. -/

/-- R152, R155: a pin number out of range takes the fault PinRange (code 2) before any access. The whole next state is the
model's in what log entries 6 (`curCmd`, `upc`, `tmp` kept), 8 (a next state) and 14 (the order) say. -/
def Obligations.PinOutOfRangeFaults : Prop :=
  ∀ (i : Instr) (s : State) (pin : Byte), pinOperand i = some pin → s.cfg.npins ≤ pin.toNat → s.QuietFor 1 →
    exec i s = .next (s.afterFault 2#3 s.curCmd)

/-- R152, R156: multiplier 0 takes the fault MultZero (code 3) at every duty, before any access. The whole next state is the
model's in what log entries 6 (`curCmd`, `upc`, `tmp` kept), 8 (a next state) and 14 (the order) say. -/
def Obligations.ZeroMultiplierFaults : Prop :=
  ∀ (s : State) (duty : Byte), s.QuietFor 1 → exec (.configDuty duty 0#8) s = .next (s.afterFault 3#3 s.curCmd)

/-- R152, R157: a multiplier above 0 whose prescale does not fit takes the fault PrescaleRange (code 4) before any access;
neither field is written. PRESET_A and PRESET_B raise no fault. The whole next state of the first clause is the model's in what
log entries 6 (`curCmd`, `upc`, `tmp` kept), 8 (a next state) and 14 (the order) say. -/
def Obligations.PrescaleOutOfRangeFaults : Prop :=
  (∀ (s : State) (duty m : Byte), 1 ≤ m.toNat → 1 ≤ fold duty → m.toNat * fold duty - 1 > 255 → s.QuietFor 1 →
    exec (.configDuty duty m) s = .next (s.afterFault 4#3 s.curCmd)) ∧
  ∀ (s t : State) (duty : Byte), exec (.presetA duty) s = .next t ∨ exec (.presetB duty) s = .next t →
    t.responses = s.responses ++ [0#4] ∧ t.fault = s.fault

/-- R152, R159: a presented command whose operands are out of range changes no register, makes no access and records the
word itself, if the record was empty, when no other agent acts up to its answer. That a fault is a next state (log entry 8),
what `curCmd`, `upc` and `tmp` hold in it (log entry 6), and the two turns used, for sampling and for the answer (log entry 4),
are the model's choice. -/
def Obligations.FaultingCommandRecordsItsWord : Prop :=
  ∀ (s : State) (w : Word) (i : Instr), s.busy = false → s.QuietFor 2 → s.stream[s.pc]? = some w → decode w = .ok i →
    ¬ i.Wf s.cfg →
    ∃ code : BitVec 3, (code = 2#3 ∨ code = 3#3 ∨ code = 4#3) ∧
      step s = .next ({ s with curCmd := w, upc := 0, sched := s.sched.tail }.afterFault code w)

/-- R150: a command answers 0 exactly when its operands are in range: no register contents and no access of an other agent
can make it fault. That a fault is a next state (log entry 8) and the list of answers (log entry 10) are the model's choice.
-/
def Obligations.OnlyOperandsDecideFaults : Prop :=
  ∀ (i : Instr) (s t : State), exec i s = .next t → (t.responses = s.responses ++ [0#4] ↔ i.Wf s.cfg)

/-- R151, R152, R153, R181: the record holds the first fault after reset until reset. A word that is illegal or whose
operands are out of range is answered with the code of its cause, by the step that presents it under any defined accesses of
other agents, and by the micro-step that answers it; it fills an empty record with that code and that word, and leaves a
valid one. No step, no micro-step and no access of an other agent changes a valid record, and what changes an empty one
makes it valid, with a cause from 1 to 4. Losing power clears it. The model's choice in this: a fault is a next state (log
entry 8); the answer is an action of its own, which microStep makes (log entry 4; R17 calls only an access a micro-step); a
sampled word that faults is answered so at any `upc` (log entry 16); and the answers are kept in a list (log entry 10). -/
def Obligations.FaultRecordKeepsTheFirst : Prop :=
  (∀ (s : State) (w : Word), (∀ i, decode w = .ok i → ¬ i.Wf s.cfg) → (∀ a r, s.sched ≠ .agent a :: r) →
    ∃ code : BitVec 3,
      ((∀ i, decode w ≠ .ok i) → code = 1#3) ∧
      (∀ i pin, decode w = .ok i → pinOperand i = some pin → code = 2#3) ∧
      (∀ d m, decode w = .ok (.configDuty d m) → code = if m = 0#8 then 3#3 else 4#3) ∧
      (s.busy = false → s.stream[s.pc]? = some w → s.Wf → s.Lawful →
        ∃ t, step s = .next t ∧ t.busy = false ∧ t.responses = s.responses ++ [code.setWidth 4] ∧
          t.fault = if s.fault.valid then s.fault else ⟨true, code, w⟩) ∧
      (s.busy = true → s.curCmd = w →
        ∃ t, microStep s = .next t ∧ t.busy = false ∧ t.responses = s.responses ++ [code.setWidth 4] ∧
          t.fault = if s.fault.valid then s.fault else ⟨true, code, w⟩)) ∧
  (∀ s t : State, step s = .next t ∨ microStep s = .next t →
    (s.fault.valid = true → t.fault = s.fault) ∧
    (t.fault ≠ s.fault → t.fault.valid = true ∧ 1 ≤ t.fault.cause.toNat ∧ t.fault.cause.toNat ≤ 4)) ∧
  (∀ (a : BusAccess) (s t : State), busAccess a s = .next t → t.fault = s.fault) ∧
  (∀ (i : Instr) (s t : State), ¬ i.Wf s.cfg → exec i s = .next t →
    (s.fault.valid = true → t.fault = s.fault) ∧
    (s.fault.valid = false → t.fault.valid = true ∧ t.fault.cmd = s.curCmd ∧
      t.responses = s.responses ++ [t.fault.cause.setWidth 4]) ∧
    ∃ code : BitVec 4, code ≠ 0#4 ∧ t.responses = s.responses ++ [code]) ∧
  ∀ (s : State) (k : Contents), (s.powerLoss k).FaultFree

/-! ### Invariants -/

/-- R9, R34, R35, R37, R159: every step, and every micro-step, keeps the invariant of the machine. That a fault is a next
state (log entry 8), that sampling and answering are actions of their own (log entry 4), and a step as one whole command
(log entry 7) are the model's choice. -/
def Obligations.StepsKeepTheInvariant : Prop :=
  ∀ s t : State, s.Inv → step s = .next t ∨ microStep s = .next t → t.Inv

/-- R180, R181: the state after reset meets the invariant and records no fault, for every configuration and whatever the
registers hold; `State.reset`, whose configuration and register values (log entries 2 and 5) and empty stream and order (log
entries 3 and 4) are the model's choice, is one of them. After power is lost in any state no fault is recorded, the block is
idle, the host's index is 0, every register holds what is given, and the configuration is as it was. -/
def Obligations.ResetMeetsTheInvariant : Prop :=
  (∀ (c : Cfg) (k : Contents), c.Wf → k.pinCtrl.length = c.npins → k.func.length = c.npins →
    (State.resetOf c k).Inv ∧ (State.resetOf c k).FaultFree ∧ (State.resetOf c k).busy = false ∧
    (State.resetOf c k).pc = 0) ∧
  State.reset.Inv ∧
  ∀ (s : State) (k : Contents), (s.powerLoss k).fault = ⟨false, 0#3, 0#32⟩ ∧ (s.powerLoss k).busy = false ∧
    (s.powerLoss k).pc = 0 ∧ (s.powerLoss k).sdReg = k.sdReg ∧ (s.powerLoss k).pinCtrl = k.pinCtrl ∧
    (s.powerLoss k).func = k.func ∧ (s.powerLoss k).outEn = k.outEn ∧ (s.powerLoss k).cfg = s.cfg

/-- R51, R59, R159: from a state that meets the invariant no step stops with a fault: the block's own accesses all reach a
register; and the only refusals are an other agent's undefined access and the end of the run. That the four faults of R151
are next states (log entry 8) and the end of the run a refusal (log entry 11) is the model's choice. -/
def Obligations.BlockNeverLeavesItsRegisters : Prop :=
  ∀ s : State, s.Inv →
    (∃ t, step s = .next t) ∨ step s = .refused .runEnded ∨
      ∃ a, Turn.agent a ∈ s.sched ∧ a.lawful s.cfg = false ∧ step s = .refused (.undefinedAccess a)

/-- R64: a step takes the other agents' accesses in their order and adds none: the order left is a tail of the order before,
so a lawful order stays lawful. The list of the order is the model's (log entry 4). -/
def Obligations.ScheduleOnlyShrinks : Prop :=
  ∀ s t : State, step s = .next t → t.sched <:+ s.sched ∧ (s.Lawful → t.Lawful)

/-! ### The register address space -/

/-- R51, R56, R57, R58: a write to a register that can be read is read back, and no other address reads differently; any write,
also to a port, repeated with the same data, changes nothing more. -/
def Obligations.ReadReturnsTheLastWrite : Prop :=
  (∀ (s : State) (addr v w : Word), s.Wf → s.memRead addr = some w →
    ∃ t, s.memWrite addr v = some t ∧ t.memRead addr = some v ∧
      ∀ b, b ≠ addr → t.memRead b = s.memRead b) ∧
  ∀ (s t : State) (addr v : Word), s.memWrite addr v = some t → t.memWrite addr v = some t

/-- R57: what a write does at each of the six writable kinds. The four plain registers (`SD_REG`, `PIN_CTRL[n]`, `FUNC[n]`,
`OUT_EN`) become the data; the two ports set and clear the bits of `OUT_EN` their data names and no other. A write has no other
effect: one of `SD_REG` that changes enable leaves target and prescale. -/
def Obligations.OutputEnablePorts : Prop :=
  ∀ (s : State) (v : Word), s.Wf →
    s.memWrite s.cfg.sdAddr v = some { s with sdReg := v } ∧
    (∀ n p, s.cfg.pins[n]? = some p →
      s.memWrite p.ctrlAddr v = some { s with pinCtrl := s.pinCtrl.set n v } ∧
      s.memWrite p.funcAddr v = some { s with func := s.func.set n v } ∧
      (s.pinCtrl.set n v)[n]? = some v ∧ (s.func.set n v)[n]? = some v) ∧
    s.memWrite s.cfg.outEnAddr v = some { s with outEn := v } ∧
    s.memWrite s.cfg.outEnSetAddr v = some { s with outEn := s.outEn ||| v } ∧
    s.memWrite s.cfg.outEnClrAddr v = some { s with outEn := s.outEn &&& ~~~v } ∧
    (∀ k, (s.outEn ||| v).getLsbD k = (s.outEn.getLsbD k || v.getLsbD k)) ∧
    (∀ k, (s.outEn &&& ~~~v).getLsbD k = (s.outEn.getLsbD k && !v.getLsbD k)) ∧
    (v = s.sdReg ^^^ 0x00010000#32 → ∀ t, s.memWrite s.cfg.sdAddr v = some t →
      enableField t.sdReg = !enableField s.sdReg ∧ targetField t.sdReg = targetField s.sdReg ∧
      prescaleField t.sdReg = prescaleField s.sdReg)

/-- R54, R59: an other agent's access that the sources do not define is refused, and every other one takes effect; a read
changes no register; neither output-enable port can be read. The access recorded in the next state is the model's (log entry
10). -/
def Obligations.UndefinedAccessesAreRefused : Prop :=
  ∀ (a : BusAccess) (s : State), s.Wf →
    (a.lawful s.cfg = false → busAccess a s = .refused (.undefinedAccess a)) ∧
    (a.lawful s.cfg = true → ∃ t, busAccess a s = .next t ∧ t.tmp = s.tmp ∧
      (a.op = .read → ∃ v, s.memRead a.addr = some v ∧ t = s.log ⟨.other, .read, a.addr, v⟩) ∧
      (∀ v, a.op = .write v → ∃ u, s.memWrite a.addr v = some u ∧ t = u.log ⟨.other, .write, a.addr, v⟩)) ∧
    s.memRead s.cfg.outEnSetAddr = none ∧ s.memRead s.cfg.outEnClrAddr = none

/-! ### The conversion -/

/-- R120: the definition of the folded value; it lies in 0 to 128, is 128 at duty 128 only and 0 at duty 0 only, is
symmetric, and agrees with the source's second form of it. -/
def Obligations.FoldLaws : Prop :=
  ∀ d : Byte, fold d = (if d.toNat > 128 then 256 - d.toNat else d.toNat) ∧ fold d ≤ 128 ∧ (fold d = 128 ↔ d = 128#8) ∧ (fold d = 0 ↔ d = 0#8) ∧
    fold (0#8 - d) = fold d ∧ fold d = (if d.toNat < 128 then d.toNat else 256 - d.toNat)

/-- R130: CONFIG_DUTY is accepted exactly when `m ≥ 1` and `fold(duty) ≤ T(m)`, that is `duty ≤ T(m)` or
`duty ≥ 256 - T(m)`; the values of `T`; at multipliers 1 and 2 every duty is accepted. The list of
answers is the model's (log entry 10). -/
def Obligations.ConverterAcceptedDomain : Prop :=
  (∀ (s : State) (duty m : Byte), s.Wf → s.Lawful →
    ((∃ t, exec (.configDuty duty m) s = .next t ∧ t.responses = s.responses ++ [0#4]) ↔
      1 ≤ m.toNat ∧ fold duty ≤ maxFold m.toNat) ∧
    (1 ≤ m.toNat → (fold duty ≤ maxFold m.toNat ↔
      duty.toNat ≤ maxFold m.toNat ∨ 256 - maxFold m.toNat ≤ duty.toNat)) ∧
    (m = 1#8 ∨ m = 2#8 → fold duty ≤ maxFold m.toNat)) ∧
  [1, 2, 3, 4, 5, 6, 7, 8, 16, 32, 64, 128].map maxFold = [128, 128, 85, 64, 51, 42, 36, 32, 16, 8, 4, 2] ∧
  ∀ m, 129 ≤ m → m ≤ 255 → maxFold m = 1

/-- R86, R126, R127: PRESET_A and PRESET_B are CONFIG_DUTY with multiplier 1 and 2, in every state and under every
interleaving. -/
def Obligations.PresetsAreConfigDuty : Prop :=
  ∀ (s : State) (duty : Byte),
    exec (.presetA duty) s = exec (.configDuty duty 1#8) s ∧ exec (.presetB duty) s = exec (.configDuty duty 2#8) s

/-- R123, R128: after an accepted conversion of a duty other than 0 the frequency view is `F_BASE / (256 * m)`, whatever the
duty; after duty 0 it is 0. The view is informative: no step reads it, and the source has not verified it (R122; log entry 15). That
the answer takes a turn of the order, which `QuietFor` counts, is the model's choice (log entry 4). -/
def Obligations.ConversionSelectsTheFrequencyClass : Prop :=
  ∀ (s t : State) (duty m : Byte), s.QuietFor 5 → m.toNat ≠ 0 → m.toNat * fold duty ≤ 256 →
    exec (.configDuty duty m) s = .next t →
    t.freq = if duty = 0#8 then 0 else s.cfg.fBase / (256 * (m.toNat : Rat))

/-! ### Sequences of commands

No other agent acts: the order is empty, past whose end only the block acts (the model's choice, log entry 4). -/

/-- R105: BIND and then UNBIND leaves the source select and the output enable of the pin clear, the masked function bits at
the pin's value, and every other bit of the three registers as it was. -/
def Obligations.BindThenUnbind : Prop :=
  ∀ (s : State) (pin : Byte) (p : PinCfg) (f c : Word), s.Wf → s.cfg.pins[pin.toNat]? = some p →
    s.func[pin.toNat]? = some f → s.pinCtrl[pin.toNat]? = some c → s.sched = [] →
    ∃ t u, exec (.bind pin) s = .next t ∧ exec (.unbind pin) t = .next u ∧
      u.pinCtrl = s.pinCtrl.set pin.toNat (c &&& ~~~(1#32 <<< s.cfg.srcBit.val)) ∧
      u.outEn = s.outEn &&& ~~~(1#32 <<< pin.toNat) ∧
      u.func = s.func.set pin.toNat ((f &&& ~~~s.cfg.funcMask) ||| p.funcBits) ∧ u.sdReg = s.sdReg

/-- R101: a second UNBIND changes no register, and nor does an UNBIND of a pin whose source select and output enable are both
clear. (An unbound pin whose output is enabled loses that output, which UnbindResult states.) -/
def Obligations.UnbindIsIdempotent : Prop :=
  ∀ (s : State) (pin : Byte), s.Wf → PinOk s.cfg pin → s.sched = [] →
    ∃ t u, exec (.unbind pin) s = .next t ∧ exec (.unbind pin) t = .next u ∧ u.pinCtrl = t.pinCtrl ∧
      u.outEn = t.outEn ∧ u.func = t.func ∧ u.sdReg = t.sdReg ∧
      (s.srcSelected pin.toNat = false → s.outputEnabled pin.toNat = false →
        t.pinCtrl = s.pinCtrl ∧ t.outEn = s.outEn ∧ t.func = s.func ∧ t.sdReg = s.sdReg)

/-- R114: SET_TARGET and SET_PRESCALE commute on `SD_REG`. -/
def Obligations.TargetAndPrescaleCommute : Prop :=
  ∀ (s : State) (a b : Byte), s.sched = [] →
    ∃ t u t' u', exec (.setTarget a) s = .next t ∧ exec (.setPrescale b) t = .next u ∧
      exec (.setPrescale b) s = .next t' ∧ exec (.setTarget a) t' = .next u' ∧ u.sdReg = u'.sdReg ∧
      t.memRead s.cfg.sdAddr = some ((s.sdReg &&& 0xFFFFFF00#32) ||| a.setWidth 32) ∧
      t'.memRead s.cfg.sdAddr = some ((s.sdReg &&& 0xFFFF00FF#32) ||| (b.setWidth 32 <<< 8))

/-- R188, R189: another pin that is bound stays bound through SETUP and CLOSE of this one, while SETUP zeroes the shared
parameters and CLOSE disables the shared modulator. -/
def Obligations.OtherPinsShareTheModulator : Prop :=
  ∀ (s : State) (pin : Byte) (k : Nat), s.Wf → PinOk s.cfg pin → k ≠ pin.toNat → s.bound k = true → s.sched = [] →
    ∃ t u, exec (.setup pin) s = .next t ∧ t.bound k = true ∧ t.sdTarget = 0#8 ∧ t.sdPrescale = 0#8 ∧
      exec (.close pin) s = .next u ∧ u.bound k = true ∧ u.sdEnable = false

/-- R183: from reset, whatever the registers hold, the command ENABLE as the first word of the stream makes the fields of
`SD_REG` known and keeps the other bits; DISABLE likewise. That the word is placed by `withFetchWord` (log entry 3) and that the
order of the other agents is empty at reset (log entry 4) are the model's choice; D24 leaves the order open. -/
def Obligations.FirstCommandAfterReset : Prop :=
  ∀ (c : Cfg) (k : Contents),
    (∃ t, step ((State.resetOf c k).withFetchWord 32 0x01000000) = .next t ∧
      t.sdReg &&& 0x0001FFFF#32 = 0x00010000#32 ∧ otherField t.sdReg = otherField k.sdReg ∧ t.FaultFree) ∧
    (∃ t, step ((State.resetOf c k).withFetchWord 32 0x02000000) = .next t ∧
      t.sdReg &&& 0x0001FFFF#32 = 0x00000000#32 ∧ otherField t.sdReg = otherField k.sdReg ∧ t.FaultFree)

/-! ### Faults and other agents, under any interleaving -/

/-- R152, R159: whatever the other agents do up to the answer, a presented word that is illegal or whose operands are out of
range leaves every register that no other agent stores to, and the block makes no access. The list of accesses is the model's
(log entry 10). That a fault is a next state (log entry 8), and the turn an answer takes (log entry 4), are too. -/
def Obligations.FaultingWordTouchesNoRegister : Prop :=
  ∀ (s t : State) (w addr : Word), s.busy = false → (∀ a r, s.sched ≠ .agent a :: r) → s.stream[s.pc]? = some w →
    (∀ i, decode w = .ok i → ¬ i.Wf s.cfg) → step s = .next t →
    (s.AgentsLeave addr → t.memRead addr = s.memRead addr) ∧ blockAccesses (newAccesses s t) = []

/-- R12: an other agent may act at any point. Its access is the next micro-step whenever its turn comes: with the block idle,
whether or not a word is left, and with the block busy, before any access and before the answer; a busy block then goes on. For
every `n`, an access that stands after `n` turns of the block is made right after the block's `n` next actions. The order as a
list of turns is the model's choice (log entry 4). -/
def Obligations.AgentActsAtAnyPoint : Prop :=
  (∀ (s : State) (a : BusAccess) (r : List Turn), s.sched = .agent a :: r →
    microStep s = busAccess a { s with sched := r } ∧
    (s.busy = true → step s = andThen (busAccess a { s with sched := r }) step)) ∧
  ∀ (n : Nat) (s : State) (a : BusAccess) (r : List Turn), s.sched = List.replicate n .block ++ .agent a :: r →
    microRun (n + 1) s = andThen (microRun n s) (fun t => busAccess a { t with sched := r })
end

