-- ==== Sys2Proof/Laws/State.lean ====
section
/-! SUPPORT. One lemma per field per named update of the state, each true by rfl, so that no later proof unfolds a record
update. -/

namespace Sys2Proof.Machine

variable (s : State)

/-! ### log -/

@[simp] theorem State.log_cfg (a : Access) : (s.log a).cfg = s.cfg := rfl
@[simp] theorem State.log_sdReg (a : Access) : (s.log a).sdReg = s.sdReg := rfl
@[simp] theorem State.log_pinCtrl (a : Access) : (s.log a).pinCtrl = s.pinCtrl := rfl
@[simp] theorem State.log_func (a : Access) : (s.log a).func = s.func := rfl
@[simp] theorem State.log_outEn (a : Access) : (s.log a).outEn = s.outEn := rfl
@[simp] theorem State.log_busy (a : Access) : (s.log a).busy = s.busy := rfl
@[simp] theorem State.log_curCmd (a : Access) : (s.log a).curCmd = s.curCmd := rfl
@[simp] theorem State.log_upc (a : Access) : (s.log a).upc = s.upc := rfl
@[simp] theorem State.log_tmp (a : Access) : (s.log a).tmp = s.tmp := rfl
@[simp] theorem State.log_fault (a : Access) : (s.log a).fault = s.fault := rfl
@[simp] theorem State.log_stream (a : Access) : (s.log a).stream = s.stream := rfl
@[simp] theorem State.log_pc (a : Access) : (s.log a).pc = s.pc := rfl
@[simp] theorem State.log_sched (a : Access) : (s.log a).sched = s.sched := rfl
@[simp] theorem State.log_responses (a : Access) : (s.log a).responses = s.responses := rfl
@[simp] theorem State.log_trace (a : Access) : (s.log a).trace = s.trace ++ [a] := rfl

/-! ### blockRead -/

@[simp] theorem State.blockRead_cfg (addr v : Word) : (s.blockRead addr v).cfg = s.cfg := rfl
@[simp] theorem State.blockRead_sdReg (addr v : Word) : (s.blockRead addr v).sdReg = s.sdReg := rfl
@[simp] theorem State.blockRead_pinCtrl (addr v : Word) : (s.blockRead addr v).pinCtrl = s.pinCtrl := rfl
@[simp] theorem State.blockRead_func (addr v : Word) : (s.blockRead addr v).func = s.func := rfl
@[simp] theorem State.blockRead_outEn (addr v : Word) : (s.blockRead addr v).outEn = s.outEn := rfl
@[simp] theorem State.blockRead_busy (addr v : Word) : (s.blockRead addr v).busy = s.busy := rfl
@[simp] theorem State.blockRead_curCmd (addr v : Word) : (s.blockRead addr v).curCmd = s.curCmd := rfl
@[simp] theorem State.blockRead_upc (addr v : Word) : (s.blockRead addr v).upc = s.upc + 1 := rfl
@[simp] theorem State.blockRead_tmp (addr v : Word) : (s.blockRead addr v).tmp = v := rfl
@[simp] theorem State.blockRead_fault (addr v : Word) : (s.blockRead addr v).fault = s.fault := rfl
@[simp] theorem State.blockRead_stream (addr v : Word) : (s.blockRead addr v).stream = s.stream := rfl
@[simp] theorem State.blockRead_pc (addr v : Word) : (s.blockRead addr v).pc = s.pc := rfl
@[simp] theorem State.blockRead_sched (addr v : Word) : (s.blockRead addr v).sched = s.sched := rfl
@[simp] theorem State.blockRead_responses (addr v : Word) : (s.blockRead addr v).responses = s.responses := rfl
@[simp] theorem State.blockRead_trace (addr v : Word) : (s.blockRead addr v).trace = s.trace ++ [⟨.block, .read, addr, v⟩] := rfl

/-! ### sample -/

@[simp] theorem State.sample_cfg (w : Word) : (s.sample w).cfg = s.cfg := rfl
@[simp] theorem State.sample_sdReg (w : Word) : (s.sample w).sdReg = s.sdReg := rfl
@[simp] theorem State.sample_pinCtrl (w : Word) : (s.sample w).pinCtrl = s.pinCtrl := rfl
@[simp] theorem State.sample_func (w : Word) : (s.sample w).func = s.func := rfl
@[simp] theorem State.sample_outEn (w : Word) : (s.sample w).outEn = s.outEn := rfl
@[simp] theorem State.sample_busy (w : Word) : (s.sample w).busy = true := rfl
@[simp] theorem State.sample_curCmd (w : Word) : (s.sample w).curCmd = w := rfl
@[simp] theorem State.sample_upc (w : Word) : (s.sample w).upc = 0 := rfl
@[simp] theorem State.sample_tmp (w : Word) : (s.sample w).tmp = s.tmp := rfl
@[simp] theorem State.sample_fault (w : Word) : (s.sample w).fault = s.fault := rfl
@[simp] theorem State.sample_stream (w : Word) : (s.sample w).stream = s.stream := rfl
@[simp] theorem State.sample_pc (w : Word) : (s.sample w).pc = s.pc := rfl
@[simp] theorem State.sample_sched (w : Word) : (s.sample w).sched = s.sched := rfl
@[simp] theorem State.sample_responses (w : Word) : (s.sample w).responses = s.responses := rfl
@[simp] theorem State.sample_trace (w : Word) : (s.sample w).trace = s.trace := rfl

/-! ### start -/

@[simp] theorem State.start_cfg : (s.start).cfg = s.cfg := rfl
@[simp] theorem State.start_sdReg : (s.start).sdReg = s.sdReg := rfl
@[simp] theorem State.start_pinCtrl : (s.start).pinCtrl = s.pinCtrl := rfl
@[simp] theorem State.start_func : (s.start).func = s.func := rfl
@[simp] theorem State.start_outEn : (s.start).outEn = s.outEn := rfl
@[simp] theorem State.start_busy : (s.start).busy = true := rfl
@[simp] theorem State.start_curCmd : (s.start).curCmd = s.curCmd := rfl
@[simp] theorem State.start_upc : (s.start).upc = 0 := rfl
@[simp] theorem State.start_tmp : (s.start).tmp = s.tmp := rfl
@[simp] theorem State.start_fault : (s.start).fault = s.fault := rfl
@[simp] theorem State.start_stream : (s.start).stream = s.stream := rfl
@[simp] theorem State.start_pc : (s.start).pc = s.pc := rfl
@[simp] theorem State.start_sched : (s.start).sched = s.sched := rfl
@[simp] theorem State.start_responses : (s.start).responses = s.responses := rfl
@[simp] theorem State.start_trace : (s.start).trace = s.trace := rfl

/-! ### respond -/

@[simp] theorem State.respond_cfg (c : BitVec 4) : (s.respond c).cfg = s.cfg := rfl
@[simp] theorem State.respond_sdReg (c : BitVec 4) : (s.respond c).sdReg = s.sdReg := rfl
@[simp] theorem State.respond_pinCtrl (c : BitVec 4) : (s.respond c).pinCtrl = s.pinCtrl := rfl
@[simp] theorem State.respond_func (c : BitVec 4) : (s.respond c).func = s.func := rfl
@[simp] theorem State.respond_outEn (c : BitVec 4) : (s.respond c).outEn = s.outEn := rfl
@[simp] theorem State.respond_busy (c : BitVec 4) : (s.respond c).busy = false := rfl
@[simp] theorem State.respond_curCmd (c : BitVec 4) : (s.respond c).curCmd = s.curCmd := rfl
@[simp] theorem State.respond_upc (c : BitVec 4) : (s.respond c).upc = s.upc := rfl
@[simp] theorem State.respond_tmp (c : BitVec 4) : (s.respond c).tmp = s.tmp := rfl
@[simp] theorem State.respond_fault (c : BitVec 4) : (s.respond c).fault = s.fault := rfl
@[simp] theorem State.respond_stream (c : BitVec 4) : (s.respond c).stream = s.stream := rfl
@[simp] theorem State.respond_pc (c : BitVec 4) : (s.respond c).pc = s.pc + 1 := rfl
@[simp] theorem State.respond_sched (c : BitVec 4) : (s.respond c).sched = s.sched := rfl
@[simp] theorem State.respond_responses (c : BitVec 4) : (s.respond c).responses = s.responses ++ [c] := rfl
@[simp] theorem State.respond_trace (c : BitVec 4) : (s.respond c).trace = s.trace := rfl

/-! ### finish -/

@[simp] theorem State.finish_cfg : (s.finish).cfg = s.cfg := rfl
@[simp] theorem State.finish_sdReg : (s.finish).sdReg = s.sdReg := rfl
@[simp] theorem State.finish_pinCtrl : (s.finish).pinCtrl = s.pinCtrl := rfl
@[simp] theorem State.finish_func : (s.finish).func = s.func := rfl
@[simp] theorem State.finish_outEn : (s.finish).outEn = s.outEn := rfl
@[simp] theorem State.finish_busy : (s.finish).busy = false := rfl
@[simp] theorem State.finish_curCmd : (s.finish).curCmd = s.curCmd := rfl
@[simp] theorem State.finish_upc : (s.finish).upc = s.upc := rfl
@[simp] theorem State.finish_tmp : (s.finish).tmp = s.tmp := rfl
@[simp] theorem State.finish_fault : (s.finish).fault = s.fault := rfl
@[simp] theorem State.finish_stream : (s.finish).stream = s.stream := rfl
@[simp] theorem State.finish_pc : (s.finish).pc = s.pc + 1 := rfl
@[simp] theorem State.finish_sched : (s.finish).sched = s.sched := rfl
@[simp] theorem State.finish_responses : (s.finish).responses = s.responses ++ [respOk] := rfl
@[simp] theorem State.finish_trace : (s.finish).trace = s.trace := rfl

/-! ### raise -/

@[simp] theorem State.raise_cfg (c : Cause) : (s.raise c).cfg = s.cfg := rfl
@[simp] theorem State.raise_sdReg (c : Cause) : (s.raise c).sdReg = s.sdReg := rfl
@[simp] theorem State.raise_pinCtrl (c : Cause) : (s.raise c).pinCtrl = s.pinCtrl := rfl
@[simp] theorem State.raise_func (c : Cause) : (s.raise c).func = s.func := rfl
@[simp] theorem State.raise_outEn (c : Cause) : (s.raise c).outEn = s.outEn := rfl
@[simp] theorem State.raise_busy (c : Cause) : (s.raise c).busy = false := rfl
@[simp] theorem State.raise_curCmd (c : Cause) : (s.raise c).curCmd = s.curCmd := rfl
@[simp] theorem State.raise_upc (c : Cause) : (s.raise c).upc = s.upc := rfl
@[simp] theorem State.raise_tmp (c : Cause) : (s.raise c).tmp = s.tmp := rfl
@[simp] theorem State.raise_fault (c : Cause) : (s.raise c).fault = s.fault.latch c s.curCmd := rfl
@[simp] theorem State.raise_stream (c : Cause) : (s.raise c).stream = s.stream := rfl
@[simp] theorem State.raise_pc (c : Cause) : (s.raise c).pc = s.pc + 1 := rfl
@[simp] theorem State.raise_sched (c : Cause) : (s.raise c).sched = s.sched := rfl
@[simp] theorem State.raise_responses (c : Cause) : (s.raise c).responses = s.responses ++ [c.resp] := rfl
@[simp] theorem State.raise_trace (c : Cause) : (s.raise c).trace = s.trace := rfl

/-! ### placeCommand -/

@[simp] theorem State.placeCommand_cfg (w : Word) : (s.placeCommand w).cfg = s.cfg := rfl
@[simp] theorem State.placeCommand_sdReg (w : Word) : (s.placeCommand w).sdReg = s.sdReg := rfl
@[simp] theorem State.placeCommand_pinCtrl (w : Word) : (s.placeCommand w).pinCtrl = s.pinCtrl := rfl
@[simp] theorem State.placeCommand_func (w : Word) : (s.placeCommand w).func = s.func := rfl
@[simp] theorem State.placeCommand_outEn (w : Word) : (s.placeCommand w).outEn = s.outEn := rfl
@[simp] theorem State.placeCommand_busy (w : Word) : (s.placeCommand w).busy = false := rfl
@[simp] theorem State.placeCommand_curCmd (w : Word) : (s.placeCommand w).curCmd = s.curCmd := rfl
@[simp] theorem State.placeCommand_upc (w : Word) : (s.placeCommand w).upc = s.upc := rfl
@[simp] theorem State.placeCommand_tmp (w : Word) : (s.placeCommand w).tmp = s.tmp := rfl
@[simp] theorem State.placeCommand_fault (w : Word) : (s.placeCommand w).fault = s.fault := rfl
@[simp] theorem State.placeCommand_stream (w : Word) : (s.placeCommand w).stream = placeWord s.stream s.pc w := rfl
@[simp] theorem State.placeCommand_pc (w : Word) : (s.placeCommand w).pc = s.pc := rfl
@[simp] theorem State.placeCommand_sched (w : Word) : (s.placeCommand w).sched = .block :: s.sched := rfl
@[simp] theorem State.placeCommand_responses (w : Word) : (s.placeCommand w).responses = s.responses := rfl
@[simp] theorem State.placeCommand_trace (w : Word) : (s.placeCommand w).trace = s.trace := rfl

/-! ### takeTurn -/

@[simp] theorem State.takeTurn_cfg : (s.takeTurn).cfg = s.cfg := rfl
@[simp] theorem State.takeTurn_sdReg : (s.takeTurn).sdReg = s.sdReg := rfl
@[simp] theorem State.takeTurn_pinCtrl : (s.takeTurn).pinCtrl = s.pinCtrl := rfl
@[simp] theorem State.takeTurn_func : (s.takeTurn).func = s.func := rfl
@[simp] theorem State.takeTurn_outEn : (s.takeTurn).outEn = s.outEn := rfl
@[simp] theorem State.takeTurn_busy : (s.takeTurn).busy = s.busy := rfl
@[simp] theorem State.takeTurn_curCmd : (s.takeTurn).curCmd = s.curCmd := rfl
@[simp] theorem State.takeTurn_upc : (s.takeTurn).upc = s.upc := rfl
@[simp] theorem State.takeTurn_tmp : (s.takeTurn).tmp = s.tmp := rfl
@[simp] theorem State.takeTurn_fault : (s.takeTurn).fault = s.fault := rfl
@[simp] theorem State.takeTurn_stream : (s.takeTurn).stream = s.stream := rfl
@[simp] theorem State.takeTurn_pc : (s.takeTurn).pc = s.pc := rfl
@[simp] theorem State.takeTurn_sched : (s.takeTurn).sched = s.sched.tail := rfl
@[simp] theorem State.takeTurn_responses : (s.takeTurn).responses = s.responses := rfl
@[simp] theorem State.takeTurn_trace : (s.takeTurn).trace = s.trace := rfl

/-! ### writeLoc and blockWrite: what no write of a register changes -/

@[simp] theorem State.writeLoc_cfg (l : Loc) (v : Word) : (s.writeLoc l v).cfg = s.cfg := by cases l <;> rfl
@[simp] theorem State.writeLoc_busy (l : Loc) (v : Word) : (s.writeLoc l v).busy = s.busy := by cases l <;> rfl
@[simp] theorem State.writeLoc_curCmd (l : Loc) (v : Word) : (s.writeLoc l v).curCmd = s.curCmd := by cases l <;> rfl
@[simp] theorem State.writeLoc_upc (l : Loc) (v : Word) : (s.writeLoc l v).upc = s.upc := by cases l <;> rfl
@[simp] theorem State.writeLoc_tmp (l : Loc) (v : Word) : (s.writeLoc l v).tmp = s.tmp := by cases l <;> rfl
@[simp] theorem State.writeLoc_fault (l : Loc) (v : Word) : (s.writeLoc l v).fault = s.fault := by cases l <;> rfl
@[simp] theorem State.writeLoc_stream (l : Loc) (v : Word) : (s.writeLoc l v).stream = s.stream := by cases l <;> rfl
@[simp] theorem State.writeLoc_pc (l : Loc) (v : Word) : (s.writeLoc l v).pc = s.pc := by cases l <;> rfl
@[simp] theorem State.writeLoc_sched (l : Loc) (v : Word) : (s.writeLoc l v).sched = s.sched := by cases l <;> rfl
@[simp] theorem State.writeLoc_responses (l : Loc) (v : Word) : (s.writeLoc l v).responses = s.responses := by cases l <;> rfl
@[simp] theorem State.writeLoc_trace (l : Loc) (v : Word) : (s.writeLoc l v).trace = s.trace := by cases l <;> rfl

@[simp] theorem State.blockWrite_cfg (l : Loc) (addr v : Word) :
    (s.blockWrite l addr v).cfg = s.cfg := by cases l <;> rfl
@[simp] theorem State.blockWrite_sdReg (l : Loc) (addr v : Word) :
    (s.blockWrite l addr v).sdReg = (s.writeLoc l v).sdReg := rfl
@[simp] theorem State.blockWrite_pinCtrl (l : Loc) (addr v : Word) :
    (s.blockWrite l addr v).pinCtrl = (s.writeLoc l v).pinCtrl := rfl
@[simp] theorem State.blockWrite_func (l : Loc) (addr v : Word) :
    (s.blockWrite l addr v).func = (s.writeLoc l v).func := rfl
@[simp] theorem State.blockWrite_outEn (l : Loc) (addr v : Word) :
    (s.blockWrite l addr v).outEn = (s.writeLoc l v).outEn := rfl
@[simp] theorem State.blockWrite_busy (l : Loc) (addr v : Word) :
    (s.blockWrite l addr v).busy = s.busy := by cases l <;> rfl
@[simp] theorem State.blockWrite_curCmd (l : Loc) (addr v : Word) :
    (s.blockWrite l addr v).curCmd = s.curCmd := by cases l <;> rfl
@[simp] theorem State.blockWrite_upc (l : Loc) (addr v : Word) :
    (s.blockWrite l addr v).upc = s.upc + 1 := by cases l <;> rfl
@[simp] theorem State.blockWrite_tmp (l : Loc) (addr v : Word) :
    (s.blockWrite l addr v).tmp = s.tmp := by cases l <;> rfl
@[simp] theorem State.blockWrite_fault (l : Loc) (addr v : Word) :
    (s.blockWrite l addr v).fault = s.fault := by cases l <;> rfl
@[simp] theorem State.blockWrite_stream (l : Loc) (addr v : Word) :
    (s.blockWrite l addr v).stream = s.stream := by cases l <;> rfl
@[simp] theorem State.blockWrite_pc (l : Loc) (addr v : Word) :
    (s.blockWrite l addr v).pc = s.pc := by cases l <;> rfl
@[simp] theorem State.blockWrite_sched (l : Loc) (addr v : Word) :
    (s.blockWrite l addr v).sched = s.sched := by cases l <;> rfl
@[simp] theorem State.blockWrite_responses (l : Loc) (addr v : Word) :
    (s.blockWrite l addr v).responses = s.responses := by cases l <;> rfl
@[simp] theorem State.blockWrite_trace (l : Loc) (addr v : Word) :
    (s.blockWrite l addr v).trace = s.trace ++ [⟨.block, .write, addr, v⟩] := by cases l <;> rfl

end Sys2Proof.Machine
end

