-- ==== Sys2Proof/Laws/Ops.lean ====
section
/-! SUPPORT. One lemma per shared operation, saying once everything it can do; later proofs cite these. -/

namespace Sys2Proof.Machine

/-! ### Outcomes -/

@[simp] theorem andThen_next (s : State) (f : State → Result) : andThen (.next s) f = f s := rfl
@[simp] theorem andThen_fault (e : Fault) (f : State → Result) : andThen (.fault e) f = .fault e := rfl
@[simp] theorem andThen_refused (e : Refusal) (f : State → Result) : andThen (.refused e) f = .refused e := rfl

theorem andThen_assoc (r : Result) (f g : State → Result) :
    andThen (andThen r f) g = andThen r (fun s => andThen (f s) g) := by
  cases r <;> rfl

theorem andThen_eq_next {r : Result} {f : State → Result} {t : State} :
    andThen r f = .next t ↔ ∃ u, r = .next u ∧ f u = .next t := by
  cases r <;> simp [andThen]

theorem andThen_eq_fault {r : Result} {f : State → Result} {e : Fault} :
    andThen r f = .fault e ↔ r = .fault e ∨ ∃ u, r = .next u ∧ f u = .fault e := by
  cases r <;> simp [andThen]

theorem andThen_eq_refused {r : Result} {f : State → Result} {e : Refusal} :
    andThen r f = .refused e ↔ r = .refused e ∨ ∃ u, r = .next u ∧ f u = .refused e := by
  cases r <;> simp [andThen]

/-! ### The address map -/

theorem locatePin_eq_pinCtrl {c : Cfg} {a : Word} {n : Nat} (h : locatePin c a = some (.pinCtrl n)) :
    ∃ p, c.pins[n]? = some p ∧ p.ctrlAddr = a := by
  unfold locatePin at h
  split at h
  · rename_i m hm
    obtain rfl : m = n := by simpa using h
    obtain ⟨hlt, hp, -⟩ := List.findIdx?_eq_some_iff_getElem.mp hm
    exact ⟨_, List.getElem?_eq_getElem hlt, by simpa using hp⟩
  · split at h <;> simp at h

theorem locatePin_eq_func {c : Cfg} {a : Word} {n : Nat} (h : locatePin c a = some (.func n)) :
    ∃ p, c.pins[n]? = some p ∧ p.funcAddr = a := by
  unfold locatePin at h
  split at h
  · simp at h
  · split at h
    · rename_i m hm
      obtain rfl : m = n := by simpa using h
      obtain ⟨hlt, hp, -⟩ := List.findIdx?_eq_some_iff_getElem.mp hm
      exact ⟨_, List.getElem?_eq_getElem hlt, by simpa using hp⟩
    · simp at h

theorem locatePin_cases {c : Cfg} {a : Word} {l : Loc} (h : locatePin c a = some l) :
    (∃ n, l = .pinCtrl n) ∨ ∃ n, l = .func n := by
  unfold locatePin at h
  split at h
  · exact .inl ⟨_, (Option.some.inj h).symm⟩
  · split at h
    · exact .inr ⟨_, (Option.some.inj h).symm⟩
    · simp at h

/-- R51, R9: no register has two addresses; this needs no constraint on the configuration. -/
theorem locate_inj {c : Cfg} {a b : Word} {l : Loc} (ha : locate c a = some l) (hb : locate c b = some l) : a = b := by
  have key : ∀ x, locate c x = some l →
      (l = .sdReg ∧ x = c.sdAddr) ∨ (l = .outEn ∧ x = c.outEnAddr) ∨ (l = .outEnSet ∧ x = c.outEnSetAddr) ∨
      (l = .outEnClr ∧ x = c.outEnClrAddr) ∨ (∃ n p, l = .pinCtrl n ∧ c.pins[n]? = some p ∧ p.ctrlAddr = x) ∨
      (∃ n p, l = .func n ∧ c.pins[n]? = some p ∧ p.funcAddr = x) := by
    intro x hx
    unfold locate at hx
    split at hx
    · exact .inl ⟨(Option.some.inj hx).symm, ‹_›⟩
    split at hx
    · exact .inr (.inl ⟨(Option.some.inj hx).symm, ‹_›⟩)
    split at hx
    · exact .inr (.inr (.inl ⟨(Option.some.inj hx).symm, ‹_›⟩))
    split at hx
    · exact .inr (.inr (.inr (.inl ⟨(Option.some.inj hx).symm, ‹_›⟩)))
    rcases locatePin_cases hx with ⟨n, rfl⟩ | ⟨n, rfl⟩
    · obtain ⟨p, hp, rfl⟩ := locatePin_eq_pinCtrl hx
      exact .inr (.inr (.inr (.inr (.inl ⟨n, p, rfl, hp, rfl⟩))))
    · obtain ⟨p, hp, rfl⟩ := locatePin_eq_func hx
      exact .inr (.inr (.inr (.inr (.inr ⟨n, p, rfl, hp, rfl⟩))))
  rcases key a ha with ⟨rfl, h⟩ | ⟨rfl, h⟩ | ⟨rfl, h⟩ | ⟨rfl, h⟩ | ⟨n, p, rfl, hp, h⟩ | ⟨n, p, rfl, hp, h⟩ <;>
    rcases key b hb with ⟨h0, h'⟩ | ⟨h0, h'⟩ | ⟨h0, h'⟩ | ⟨h0, h'⟩ | ⟨m, q, h0, hq, h'⟩ | ⟨m, q, h0, hq, h'⟩ <;>
    simp_all

@[simp] theorem locate_sdAddr (c : Cfg) : locate c c.sdAddr = some .sdReg := by simp [locate]

/-- What `Cfg.Wf` says of the addresses, in the shape the lookups use. -/
theorem cfgWf_fixed_addrs {c : Cfg} (h : c.Wf) :
    c.outEnAddr ≠ c.sdAddr ∧ c.outEnSetAddr ≠ c.sdAddr ∧ c.outEnSetAddr ≠ c.outEnAddr ∧
    c.outEnClrAddr ≠ c.sdAddr ∧ c.outEnClrAddr ≠ c.outEnAddr ∧ c.outEnClrAddr ≠ c.outEnSetAddr := by
  have := h.2.2.1
  simp only [Cfg.DistinctOk, Cfg.addrs, List.nodup_cons, List.mem_cons, not_or] at this
  tauto

theorem cfgWf_pin_addrs {c : Cfg} (h : c.Wf) {p : PinCfg} (hp : p ∈ c.pins) :
    (p.ctrlAddr ≠ c.sdAddr ∧ p.ctrlAddr ≠ c.outEnAddr ∧ p.ctrlAddr ≠ c.outEnSetAddr ∧ p.ctrlAddr ≠ c.outEnClrAddr) ∧
    (p.funcAddr ≠ c.sdAddr ∧ p.funcAddr ≠ c.outEnAddr ∧ p.funcAddr ≠ c.outEnSetAddr ∧ p.funcAddr ≠ c.outEnClrAddr) := by
  have hd := h.2.2.1
  have h1 : p.ctrlAddr ∈ c.pins.map PinCfg.ctrlAddr ++ c.pins.map PinCfg.funcAddr :=
    List.mem_append_left _ (List.mem_map_of_mem hp)
  have h2 : p.funcAddr ∈ c.pins.map PinCfg.ctrlAddr ++ c.pins.map PinCfg.funcAddr :=
    List.mem_append_right _ (List.mem_map_of_mem hp)
  simp only [Cfg.DistinctOk, Cfg.addrs, List.nodup_cons, List.mem_cons, not_or] at hd
  refine ⟨⟨?_, ?_, ?_, ?_⟩, ?_, ?_, ?_, ?_⟩ <;> rintro heq <;> simp_all

theorem cfgWf_pin_addrs_apart {c : Cfg} (h : c.Wf) {p q : PinCfg} (hp : p ∈ c.pins) (hq : q ∈ c.pins) :
    p.ctrlAddr ≠ q.funcAddr := by
  have hd := h.2.2.1
  simp only [Cfg.DistinctOk, Cfg.addrs, List.nodup_cons] at hd
  have := (List.nodup_append.mp hd.2.2.2.2).2.2
  exact this _ (List.mem_map_of_mem hp) _ (List.mem_map_of_mem hq)

/-- The lookup of an address held by one pin finds that pin. -/
theorem findIdx?_unique {ps : List PinCfg} {f : PinCfg → Word} (hnd : (ps.map f).Nodup) {n : Nat} {p : PinCfg}
    (hp : ps[n]? = some p) : ps.findIdx? (fun q => f q == f p) = some n := by
  obtain ⟨hlt, rfl⟩ := List.getElem?_eq_some_iff.mp hp
  rw [List.findIdx?_eq_some_iff_getElem]
  refine ⟨hlt, by simp, fun j hj => ?_⟩
  have hne := (List.nodup_iff_injective_getElem.mp hnd).ne
    (a₁ := ⟨j, by simpa using hj.trans hlt⟩) (a₂ := ⟨n, by simpa using hlt⟩) (by simpa using hj.ne)
  simpa using hne

theorem cfgWf_locate_ctrl {c : Cfg} (h : c.Wf) {n : Nat} {p : PinCfg} (hp : c.pins[n]? = some p) :
    locate c p.ctrlAddr = some (.pinCtrl n) := by
  have hm := List.mem_of_getElem? hp
  obtain ⟨⟨h1, h2, h3, h4⟩, -⟩ := cfgWf_pin_addrs h hm
  have hd := h.2.2.1
  simp only [Cfg.DistinctOk, Cfg.addrs, List.nodup_cons] at hd
  have hnd := (List.nodup_append.mp hd.2.2.2.2).1
  simp [locate, h1, h2, h3, h4, locatePin, findIdx?_unique hnd hp]

theorem cfgWf_locate_func {c : Cfg} (h : c.Wf) {n : Nat} {p : PinCfg} (hp : c.pins[n]? = some p) :
    locate c p.funcAddr = some (.func n) := by
  have hm := List.mem_of_getElem? hp
  obtain ⟨-, h1, h2, h3, h4⟩ := cfgWf_pin_addrs h hm
  have hd := h.2.2.1
  simp only [Cfg.DistinctOk, Cfg.addrs, List.nodup_cons] at hd
  have hnd := (List.nodup_append.mp hd.2.2.2.2).2.1
  have hnone : c.pins.findIdx? (fun q => q.ctrlAddr == p.funcAddr) = none := by
    rw [List.findIdx?_eq_none_iff]
    intro q hq
    simpa using cfgWf_pin_addrs_apart h hq hm
  simp [locate, h1, h2, h3, h4, locatePin, findIdx?_unique hnd hp, hnone]

theorem cfgWf_locate_outEn {c : Cfg} (h : c.Wf) : locate c c.outEnAddr = some .outEn := by
  simp [locate, cfgWf_fixed_addrs h]

theorem cfgWf_locate_outEnSet {c : Cfg} (h : c.Wf) : locate c c.outEnSetAddr = some .outEnSet := by
  simp [locate, cfgWf_fixed_addrs h]

theorem cfgWf_locate_outEnClr {c : Cfg} (h : c.Wf) : locate c c.outEnClrAddr = some .outEnClr := by
  simp [locate, cfgWf_fixed_addrs h]

theorem Cfg.pin?_lt {c : Cfg} {pin : Byte} {p : PinCfg} (h : c.pin? pin = some p) : pin.toNat < c.npins :=
  (List.getElem?_eq_some_iff.mp h).1

/-- R31, R155: the lookup fails exactly when `pin ≥ NPINS`. -/
theorem Cfg.pin?_eq_none {c : Cfg} {pin : Byte} : c.pin? pin = none ↔ ¬ PinOk c pin := by
  simp [Cfg.pin?, PinOk, Cfg.npins]

/-! ### Registers -/

/-- R57: a write reaches its own register and no other; the two ports reach `OUT_EN`. -/
theorem State.readLoc_writeLoc_of_ne (s : State) {l k : Loc} (v : Word) (h : l ≠ k)
    (hp : k = .outEn → l ≠ .outEnSet ∧ l ≠ .outEnClr) : (s.writeLoc l v).readLoc k = s.readLoc k := by
  cases l <;> cases k <;> simp_all [State.writeLoc, State.readLoc]

@[simp] theorem State.readLoc_log (s : State) (a : Access) (l : Loc) : (s.log a).readLoc l = s.readLoc l := by
  cases l <;> rfl

@[simp] theorem State.writeLoc_pinCtrl_length (s : State) (l : Loc) (v : Word) :
    (s.writeLoc l v).pinCtrl.length = s.pinCtrl.length := by
  cases l <;> simp [State.writeLoc]

@[simp] theorem State.writeLoc_func_length (s : State) (l : Loc) (v : Word) :
    (s.writeLoc l v).func.length = s.func.length := by
  cases l <;> simp [State.writeLoc]

/-- R57: one write, seen through a read of any address. -/
theorem State.memRead_writeLoc {s : State} {l : Loc} {a b v : Word} (hl : locate s.cfg a = some l) (hne : a ≠ b)
    (hport : b = s.cfg.outEnAddr → l ≠ .outEnSet ∧ l ≠ .outEnClr) :
    (s.writeLoc l v).memRead b = s.memRead b := by
  unfold State.memRead
  rw [State.writeLoc_cfg]
  cases hk : locate s.cfg b with
  | none => rfl
  | some k =>
    refine State.readLoc_writeLoc_of_ne s v ?_ ?_
    · rintro rfl
      exact hne (locate_inj hl hk)
    · rintro rfl
      refine hport ?_
      unfold locate at hk
      repeat' split at hk
      all_goals first | assumption | simp at hk | skip
      rcases locatePin_cases hk with ⟨n, h⟩ | ⟨n, h⟩ <;> simp at h

/-! ### Other bus agents -/

/-- R56, R57, R59: everything an access of an other agent can do. -/
theorem busAccess_next {a : BusAccess} {s t : State} (h : busAccess a s = .next t) :
    a.wholeWord = true ∧
    ((∃ v, a.op = .read ∧ s.memRead a.addr = some v ∧ t = s.log ⟨.other, .read, a.addr, v⟩) ∨
     (∃ v l, a.op = .write v ∧ locate s.cfg a.addr = some l ∧
        t = (s.writeLoc l v).log ⟨.other, .write, a.addr, v⟩)) := by
  unfold busAccess at h
  split at h
  · rename_i hw
    refine ⟨hw, ?_⟩
    split at h
    · split at h
      · exact .inl ⟨_, ‹_›, ‹_›, (Host.Outcome.next.inj h).symm⟩
      · simp at h
    · split at h
      · rename_i hm
        unfold State.memWrite at hm
        split at hm
        · refine .inr ⟨_, _, ‹_›, ‹_›, ?_⟩
          rw [← Option.some.inj hm] at h
          exact (Host.Outcome.next.inj h).symm
        · simp at hm
      · simp at h
  · simp at h

/-- R59: an access of an other agent never faults, and is refused only under its own name. -/
theorem busAccess_total (a : BusAccess) (s : State) :
    (∃ t, busAccess a s = .next t) ∨ busAccess a s = .refused (.undefinedAccess a) := by
  unfold busAccess
  split
  · split <;> split <;> simp
  · simp

/-! ### Runs of micro-steps -/

theorem runOps_append (xs ys : List MicroOp) (s : State) :
    runOps (xs ++ ys) s = andThen (runOps xs s) (runOps ys) := by
  induction xs generalizing s with
  | nil => rfl
  | cons op ops ih =>
    simp only [List.cons_append, runOps, andThen_assoc]
    congr 1; funext t; congr 1; funext u; exact ih u

/-- R12: everything the answer of a command can do. -/
theorem answer_next {f : State → State} {s t : State} :
    answer f s = .next t ↔ ∃ u, agentsBefore s = .next u ∧ t = f u := by
  simp only [answer, andThen_eq_next, Host.Outcome.next.injEq, eq_comm (a := t)]

/-- Everything the rest of a command can do. -/
theorem perform_next {ops : List MicroOp} {s t : State} :
    perform ops s = .next t ↔ ∃ u v, runOps ops s = .next u ∧ agentsBefore u = .next v ∧ t = v.finish := by
  simp [perform, andThen_eq_next, answer_next]

/-- Everything the rest of a command that faults can do. -/
theorem performRaise_next {c : Cause} {s t : State} :
    performRaise c s = .next t ↔ ∃ u, agentsBefore s = .next u ∧ t = u.raise c := answer_next

/-- Once and for all: what every access of every agent keeps, a command's run keeps. -/
theorem agentsUntilBlock_keeps {P : State → Prop}
    (hAgent : ∀ a s t, P s → busAccess a s = .next t → P t)
    (hSched : ∀ (s : State) r, P s → P { s with sched := r })
    {r : List Turn} {s t : State} (hs : P s) (h : agentsUntilBlock r s = .next t) : P t := by
  induction r generalizing s with
  | nil => cases h; exact hSched _ _ hs
  | cons u r ih =>
    cases u with
    | block => cases h; exact hSched _ _ hs
    | agent a =>
      obtain ⟨v, hv, hr⟩ := andThen_eq_next.mp h
      exact ih (hAgent a s v hs hv) hr

theorem runOps_keeps {P : State → Prop} {ops : List MicroOp}
    (hAgent : ∀ a s t, P s → busAccess a s = .next t → P t)
    (hSched : ∀ (s : State) r, P s → P { s with sched := r })
    (hBlock : ∀ op ∈ ops, ∀ s t, P s → blockAccess op s = .next t → P t)
    {s t : State} (hs : P s) (h : runOps ops s = .next t) : P t := by
  induction ops generalizing s with
  | nil => cases h; exact hs
  | cons op ops ih =>
    obtain ⟨u, hu, hr⟩ := andThen_eq_next.mp h
    obtain ⟨v, hv, hb⟩ := andThen_eq_next.mp hu
    have hPv := agentsUntilBlock_keeps hAgent hSched hs hv
    exact ih (fun o ho => hBlock o (List.mem_cons_of_mem _ ho)) (hBlock op (List.mem_cons_self ..) v u hPv hb) hr

/-- R56, R57: everything one micro-step of the block can do. -/
theorem blockAccess_next {op : MicroOp} {s t : State} (h : blockAccess op s = .next t) :
    (∃ a v, op = .read a ∧ s.memRead a = some v ∧ t = s.blockRead a v) ∨
    (∃ a v l, (op = .write a v ∨ ∃ k i, op = .writeBack a k i ∧ v = (s.tmp &&& k) ||| i) ∧
      locate s.cfg a = some l ∧ t = s.blockWrite l a v) := by
  cases op with
  | read a =>
    simp only [blockAccess] at h
    split at h
    · exact .inl ⟨a, _, rfl, ‹_›, (Host.Outcome.next.inj h).symm⟩
    · simp at h
  | writeBack a k i =>
    simp only [blockAccess, blockStore] at h
    split at h
    · exact .inr ⟨a, _, _, .inr ⟨k, i, rfl, rfl⟩, ‹_›, (Host.Outcome.next.inj h).symm⟩
    · simp at h
  | write a d =>
    simp only [blockAccess, blockStore] at h
    split at h
    · exact .inr ⟨a, d, _, .inl rfl, ‹_›, (Host.Outcome.next.inj h).symm⟩
    · simp at h

/-- R62: with no other agent's access in the way, the block's next action comes at once. -/
theorem agentsBefore_quiet {s : State} {n : Nat} (h : s.QuietFor (n + 1)) :
    agentsBefore s = .next { s with sched := s.sched.drop 1 } := by
  unfold agentsBefore
  cases hs : s.sched with
  | nil => rfl
  | cons u r =>
    have : u = Turn.block := h u (by simp [hs])
    subst this
    rfl

theorem QuietFor.drop {s : State} {n : Nat} (h : s.QuietFor (n + 1)) :
    ∀ t ∈ (s.sched.drop 1).take n, t = Turn.block := by
  intro t ht
  refine h t ?_
  cases hs : s.sched with
  | nil => simp [hs] at ht
  | cons u r => simp [hs] at ht ⊢; exact .inr ht

end Sys2Proof.Machine
end

