-- ==== Sys2Proof/Laws/Exec.lean ====
section
/-! SUPPORT. Every command as its plan: what the checks decide, which addresses the micro-steps use, what a quiet run
comes to, and the accesses a run leaves in the trace. -/

namespace Sys2Proof.Machine

/-- R81: every command is its checks and micro-steps. -/
theorem exec_eq_transact (i : Instr) (s : State) : exec i s = transact (planOf s.cfg i) s := by
  cases i <;> rfl

theorem transact_run (ops : List MicroOp) (s : State) : transact (.run ops) s = perform ops s.start := rfl

theorem exec_next {i : Instr} {s t : State} (h : exec i s = .next t) :
    (∃ c u, planOf s.cfg i = .raise c ∧ agentsBefore s = .next u ∧ t = u.raise c) ∨
    (∃ ops u v, planOf s.cfg i = .run ops ∧ runOps ops s.start = .next u ∧ agentsBefore u = .next v ∧ t = v.finish) := by
  rw [exec_eq_transact] at h
  cases hp : planOf s.cfg i with
  | raise c =>
    rw [hp] at h
    obtain ⟨u, hu⟩ := performRaise_next.mp h
    exact .inl ⟨c, u, rfl, hu⟩
  | run ops =>
    rw [hp] at h
    obtain ⟨u, v, huv⟩ := perform_next.mp h
    exact .inr ⟨ops, u, v, rfl, huv⟩

/-! ### The checks -/

theorem planPin_of_some {c : Cfg} {pin : Byte} {p : PinCfg} (h : c.pins[pin.toNat]? = some p)
    (f : PinCfg → List MicroOp) : planPin c pin f = .run (f p) := by
  simp [planPin, Cfg.pin?, h]

theorem planPin_of_not_ok {c : Cfg} {pin : Byte} (h : ¬ PinOk c pin) (f : PinCfg → List MicroOp) :
    planPin c pin f = .raise .pinRange := by
  simp [planPin, Cfg.pin?_eq_none.mpr h]

theorem pin_of_ok {c : Cfg} {pin : Byte} (h : PinOk c pin) : ∃ p, c.pins[pin.toNat]? = some p :=
  ⟨_, List.getElem?_eq_getElem h⟩

/-- R120 -/
theorem fold_le (d : Byte) : fold d ≤ 128 := by unfold fold; split <;> omega

theorem fold_eq_zero (d : Byte) : fold d = 0 ↔ d.toNat = 0 := by
  have := d.isLt
  unfold fold; split <;> omega

/-- R124: the prescale fits exactly when `m * t ≤ 256`. -/
theorem pre_le_255 (m t : Nat) : pre m t ≤ 255 ↔ t = 0 ∨ m * t ≤ 256 := by
  unfold pre; split <;> omega

theorem planConfigDuty_ok {c : Cfg} {duty m : Byte} (hm : m.toNat ≠ 0) (h : m.toNat * fold duty ≤ 256) :
    planConfigDuty c duty m = .run (opsConfigure c duty (low8 (pre m.toNat (fold duty)))) := by
  have := (pre_le_255 m.toNat (fold duty)).mpr (.inr h)
  simp [planConfigDuty, hm, Nat.not_lt.mpr this]

theorem planConfigDuty_mult {c : Cfg} {duty m : Byte} (hm : m.toNat = 0) :
    planConfigDuty c duty m = .raise .multZero := by simp [planConfigDuty, hm]

theorem planConfigDuty_pre {c : Cfg} {duty m : Byte} (hm : m.toNat ≠ 0) (h : ¬ m.toNat * fold duty ≤ 256) :
    planConfigDuty c duty m = .raise .prescaleRange := by
  have : ¬ pre m.toNat (fold duty) ≤ 255 := by
    rw [pre_le_255]; rintro (h0 | h0)
    · exact h (by simp [h0])
    · exact h h0
  simp [planConfigDuty, hm, Nat.lt_of_not_le this]

/-- R150, R155 to R157: what the checks of a command decide. -/
theorem planOf_cases (c : Cfg) (i : Instr) :
    (i.Wf c ∧ ∃ ops, planOf c i = .run ops) ∨
    (¬ i.Wf c ∧ ∃ f, planOf c i = .raise f ∧ f ≠ .illegalCommand) := by
  have hpin : ∀ (pin : Byte) (f : PinCfg → List MicroOp),
      (PinOk c pin ∧ ∃ ops, planPin c pin f = .run ops) ∨
      (¬ PinOk c pin ∧ ∃ e, planPin c pin f = .raise e ∧ e ≠ .illegalCommand) := by
    intro pin f
    by_cases h : PinOk c pin
    · obtain ⟨p, hp⟩ := pin_of_ok h
      exact .inl ⟨h, _, planPin_of_some hp f⟩
    · exact .inr ⟨h, _, planPin_of_not_ok h f, by decide⟩
  cases i with
  | enable => exact .inl ⟨trivial, _, rfl⟩
  | disable => exact .inl ⟨trivial, _, rfl⟩
  | setTarget v => exact .inl ⟨trivial, _, rfl⟩
  | setPrescale v => exact .inl ⟨trivial, _, rfl⟩
  | presetA d => exact .inl ⟨trivial, _, rfl⟩
  | presetB d => exact .inl ⟨trivial, _, rfl⟩
  | bind pin => exact hpin pin _
  | unbind pin => exact hpin pin _
  | setup pin => exact hpin pin _
  | close pin => exact hpin pin _
  | configDuty d m =>
    by_cases hm : m.toNat = 0
    · exact .inr ⟨fun h => h.1 hm, _, planConfigDuty_mult hm, by decide⟩
    · by_cases h : m.toNat * fold d ≤ 256
      · exact .inl ⟨⟨hm, h⟩, _, planConfigDuty_ok hm h⟩
      · exact .inr ⟨fun h' => h h'.2, _, planConfigDuty_pre hm h, by decide⟩

theorem planOf_run_of_wf {c : Cfg} {i : Instr} (h : i.Wf c) : ∃ ops, planOf c i = .run ops :=
  (planOf_cases c i).elim And.right fun h' => absurd h h'.1

theorem wf_of_planOf_run {c : Cfg} {i : Instr} {ops : List MicroOp} (h : planOf c i = .run ops) : i.Wf c :=
  (planOf_cases c i).elim And.left fun ⟨_, f, hf, _⟩ => by simp [hf] at h

/-! ### The micro-steps of a command that passes its checks -/

/-- R100 to R141: the micro-steps, given the record of the pin the command names. -/
def opsFor (c : Cfg) (p : PinCfg) : Instr → List MicroOp
  | .enable => opsEnable c
  | .disable => opsDisable c
  | .setTarget v => opsSetTarget c v
  | .setPrescale v => opsSetPrescale c v
  | .configDuty d m => opsConfigure c d (low8 (pre m.toNat (fold d)))
  | .presetA d => opsConfigure c d (low8 (presetAPrescale d))
  | .presetB d => opsConfigure c d (low8 (presetBPrescale d))
  | .bind pin => opsBind c pin p
  | .unbind pin => opsUnbind c pin p
  | .setup pin => opsSetup c pin p
  | .close pin => opsClose c pin p

/-- The record belongs to the pin the command names, if it names one. -/
abbrev PinOf (c : Cfg) (i : Instr) (p : PinCfg) : Prop :=
  ∀ pin, pinOperand i = some pin → c.pins[pin.toNat]? = some p

theorem planOf_run {c : Cfg} {i : Instr} {ops : List MicroOp} (h : planOf c i = .run ops) :
    ∃ p, PinOf c i p ∧ ops = opsFor c p i := by
  have hpin : ∀ (pin : Byte) (f : PinCfg → List MicroOp), planPin c pin f = .run ops →
      ∃ p, c.pins[pin.toNat]? = some p ∧ ops = f p := by
    intro pin f hf
    unfold planPin at hf
    split at hf
    · simp at hf
    · exact ⟨_, ‹_›, (Plan.run.inj hf).symm⟩
  have hno : pinOperand i = none → ops = opsFor c (refPin 0) i → ∃ p, PinOf c i p ∧ ops = opsFor c p i :=
    fun hn ho => ⟨refPin 0, by simp [PinOf, hn], ho⟩
  cases i with
  | enable => exact hno rfl (Plan.run.inj h).symm
  | disable => exact hno rfl (Plan.run.inj h).symm
  | setTarget v => exact hno rfl (Plan.run.inj h).symm
  | setPrescale v => exact hno rfl (Plan.run.inj h).symm
  | presetA d => exact hno rfl (Plan.run.inj h).symm
  | presetB d => exact hno rfl (Plan.run.inj h).symm
  | configDuty d m =>
    refine hno rfl ?_
    simp only [planOf, planConfigDuty] at h
    split at h
    · simp at h
    split at h
    · simp at h
    · exact (Plan.run.inj h).symm
  | bind pin => obtain ⟨p, hp, rfl⟩ := hpin pin _ h; exact ⟨p, by simp [PinOf, pinOperand, hp], rfl⟩
  | unbind pin => obtain ⟨p, hp, rfl⟩ := hpin pin _ h; exact ⟨p, by simp [PinOf, pinOperand, hp], rfl⟩
  | setup pin => obtain ⟨p, hp, rfl⟩ := hpin pin _ h; exact ⟨p, by simp [PinOf, pinOperand, hp], rfl⟩
  | close pin => obtain ⟨p, hp, rfl⟩ := hpin pin _ h; exact ⟨p, by simp [PinOf, pinOperand, hp], rfl⟩

/-- R194: at most seven accesses. -/
theorem opsFor_length (c : Cfg) (p : PinCfg) (i : Instr) : (opsFor c p i).length ≤ 7 := by
  cases i <;> simp [opsFor, opsEnable, opsDisable, opsSetTarget, opsSetPrescale, opsConfigure, opsBind, opsUnbind,
    opsSetup, opsClose]

/-! ### A run no other agent interferes with (R62) -/

/-- The block's accesses alone. -/
def blockOps : List MicroOp → State → Result
  | [], s => .next s
  | op :: ops, s => andThen (blockAccess op s) (blockOps ops)

/-- The order of the other agents is no input of the block's access. -/
theorem blockAccess_sched (op : MicroOp) (s : State) (r : List Turn) :
    blockAccess op { s with sched := r } = andThen (blockAccess op s) (fun t => .next { t with sched := r }) := by
  have hst : ∀ a v, blockStore a v { s with sched := r } =
      andThen (blockStore a v s) (fun t => .next { t with sched := r }) := by
    intro a v
    simp only [blockStore]
    cases locate s.cfg a with
    | none => rfl
    | some l => cases l <;> rfl
  cases op with
  | read a =>
    have : ({ s with sched := r } : State).memRead a = s.memRead a := by
      simp only [State.memRead]
      cases locate s.cfg a with
      | none => rfl
      | some l => cases l <;> rfl
    simp only [blockAccess, this]
    cases s.memRead a <;> rfl
  | writeBack a k i => exact hst a _
  | write a d => exact hst a d

theorem blockAccess_keeps_sched {op : MicroOp} {s t : State} (h : blockAccess op s = .next t) : t.sched = s.sched := by
  rcases blockAccess_next h with ⟨a, v, -, -, rfl⟩ | ⟨a, v, l, -, -, rfl⟩ <;> simp

theorem blockOps_sched (ops : List MicroOp) (s : State) (r : List Turn) :
    blockOps ops { s with sched := r } = andThen (blockOps ops s) (fun t => .next { t with sched := r }) := by
  induction ops generalizing s with
  | nil => rfl
  | cons op ops ih =>
    simp only [blockOps, blockAccess_sched, andThen_assoc]
    congr 1; funext t; exact ih t

/-- R62: with no other agent's access in the way the micro-steps are the block's accesses and nothing else. -/
theorem runOps_quiet {ops : List MicroOp} {s : State} (h : s.QuietFor ops.length) :
    runOps ops s = blockOps ops { s with sched := s.sched.drop ops.length } := by
  induction ops generalizing s with
  | nil => rfl
  | cons op ops ih =>
    simp only [runOps, agentsBefore_quiet h, andThen_next, blockOps, blockAccess_sched, andThen_assoc]
    cases hb : blockAccess op s with
    | fault e => rfl
    | refused e => rfl
    | next t =>
      have hs := blockAccess_keeps_sched hb
      have hq : ({ t with sched := s.sched.drop 1 } : State).QuietFor ops.length := QuietFor.drop h
      simp only [andThen_next]
      rw [ih hq]
      simp

/-- R19, R62: a command that passes its checks, with no other agent acting up to its answer. -/
theorem exec_quiet {i : Instr} {s : State} {ops : List MicroOp} (hp : planOf s.cfg i = .run ops)
    (h : s.QuietFor (ops.length + 1)) :
    exec i s = andThen (blockOps ops { s.start with sched := s.sched.drop (ops.length + 1) })
      (fun t => .next t.finish) := by
  have h1 : s.start.QuietFor ops.length := fun u hu =>
    h u ((List.take_subset_take_left s.sched (Nat.le_succ _)) hu)
  rw [exec_eq_transact, hp, transact_run, perform, runOps_quiet h1]
  simp only [blockOps_sched, andThen_assoc]
  congr 1; funext t
  have h2 : ({ t with sched := s.start.sched.drop ops.length } : State).QuietFor 1 := by
    intro u hu
    refine h u ?_
    rw [List.take_add]
    exact List.mem_append_right _ hu
  rw [andThen_next, answer, agentsBefore_quiet h2]
  simp

/-- R152: a command that faults, with no other agent acting before its answer. -/
theorem exec_raise_quiet {i : Instr} {s : State} {c : Cause} (hp : planOf s.cfg i = .raise c) (h : s.QuietFor 1) :
    exec i s = .next (State.raise { s with sched := s.sched.drop 1 } c) := by
  rw [exec_eq_transact, hp]
  simp [transact, performRaise, answer, agentsBefore_quiet h]

/-! ### What a run leaves in the trace -/

/-- The accesses of the block that a list of micro-steps makes, with the data of each, given `tmp` before. -/
def BlockTrace : List MicroOp → Word → List Access → Prop
  | [], _, l => l = []
  | .read a :: ops, _, l => ∃ v rest, l = rd a v :: rest ∧ BlockTrace ops v rest
  | .writeBack a k i :: ops, tmp, l => ∃ rest, l = wr a ((tmp &&& k) ||| i) :: rest ∧ BlockTrace ops tmp rest
  | .write a d :: ops, tmp, l => ∃ rest, l = wr a d :: rest ∧ BlockTrace ops tmp rest

/-- An other agent's access leaves `tmp` and the block's part of the trace. -/
theorem agentsUntilBlock_trace {r : List Turn} {s t : State} (h : agentsUntilBlock r s = .next t) :
    t.tmp = s.tmp ∧ ∃ new, t.trace = s.trace ++ new ∧ blockAccesses new = [] := by
  refine agentsUntilBlock_keeps
    (P := fun u => u.tmp = s.tmp ∧ ∃ new, u.trace = s.trace ++ new ∧ blockAccesses new = [])
    ?_ ?_ ⟨rfl, [], by simp, rfl⟩ h
  · rintro a u v ⟨ht, new, hn, hb⟩ hv
    rcases (busAccess_next hv).2 with ⟨x, -, -, rfl⟩ | ⟨x, l, -, -, rfl⟩
    · exact ⟨ht, new ++ [_], by simp [hn]; rfl, by simp [blockAccesses] at hb ⊢; exact hb⟩
    · exact ⟨by simp [ht], new ++ [_], by simp [hn]; rfl, by simp [blockAccesses] at hb ⊢; exact hb⟩
  · exact fun u r' hu => hu

theorem runOps_trace {ops : List MicroOp} {s t : State} (h : runOps ops s = .next t) :
    ∃ new, t.trace = s.trace ++ new ∧ BlockTrace ops s.tmp (blockAccesses new) := by
  induction ops generalizing s with
  | nil => cases h; exact ⟨[], by simp, rfl⟩
  | cons op ops ih =>
    obtain ⟨u, hu, hr⟩ := andThen_eq_next.mp h
    obtain ⟨v, hv, hb⟩ := andThen_eq_next.mp hu
    obtain ⟨htmp, new₁, hn₁, hb₁⟩ := agentsUntilBlock_trace hv
    obtain ⟨new₂, hn₂, hb₂⟩ := ih hr
    have hcons : ∀ a : Access, a.agent = .block → blockAccesses (new₁ ++ a :: new₂) = a :: blockAccesses new₂ := by
      intro a ha
      simp only [blockAccesses] at hb₁ ⊢
      simp [hb₁, ha]
    rcases blockAccess_next hb with ⟨a, x, rfl, -, rfl⟩ | ⟨a, x, l, hx, -, rfl⟩
    · refine ⟨new₁ ++ rd a x :: new₂, by simp [hn₂, hn₁], ?_⟩
      rw [hcons _ rfl]
      exact ⟨x, _, rfl, hb₂⟩
    · refine ⟨new₁ ++ wr a x :: new₂, by simp [hn₂, hn₁], ?_⟩
      rw [hcons _ rfl]
      simp only [State.blockWrite_tmp, htmp] at hb₂
      rcases hx with rfl | ⟨k, i, rfl, rfl⟩
      · exact ⟨_, rfl, hb₂⟩
      · rw [htmp]; exact ⟨_, rfl, hb₂⟩

/-- R152, R159, R194: the block's accesses of a whole command: none where it faults, else those of its micro-steps. -/
theorem exec_trace {i : Instr} {s t : State} (h : exec i s = .next t) :
    (∃ c, planOf s.cfg i = .raise c ∧ blockAccesses (newAccesses s t) = []) ∨
    ∃ p, PinOf s.cfg i p ∧ i.Wf s.cfg ∧ BlockTrace (opsFor s.cfg p i) s.tmp (blockAccesses (newAccesses s t)) := by
  rcases exec_next h with ⟨c, u, hp, hu, rfl⟩ | ⟨ops, u, v, hp, hr, hv, rfl⟩
  · obtain ⟨-, new, hn, hb⟩ := agentsUntilBlock_trace hu
    exact .inl ⟨c, hp, by simpa [newAccesses, hn] using hb⟩
  · obtain ⟨p, hpo, rfl⟩ := planOf_run hp
    obtain ⟨new₁, hn₁, hb₁⟩ := runOps_trace hr
    obtain ⟨-, new₂, hn₂, hb₂⟩ := agentsUntilBlock_trace hv
    refine .inr ⟨p, hpo, wf_of_planOf_run hp, ?_⟩
    have hnew : newAccesses s v.finish = new₁ ++ new₂ := by simp [newAccesses, hn₁, hn₂]
    have hb : blockAccesses (new₁ ++ new₂) = blockAccesses new₁ := by
      simp only [blockAccesses] at hb₂ ⊢
      rw [List.filter_append, hb₂, List.append_nil]
    rw [hnew, hb]
    exact hb₁

end Sys2Proof.Machine
end

