-- ==== Sys2Proof/Laws/PerInstr.lean ====
section
/-! SUPPORT. Statements made per instruction: the word of every command selects its own row of the table (30_encoding.md
R84, R85). -/

namespace Sys2Proof.Laws.RowOfWord

open Sys2Proof

/-- R84: the row of a command. -/
def row : Instr → OpRow
  | .enable => ⟨0x01000000#32, 0xFFFFFFFF#32⟩
  | .disable => ⟨0x02000000#32, 0xFFFFFFFF#32⟩
  | .setTarget _ => ⟨0x03000000#32, 0xFFFFFF00#32⟩
  | .setPrescale _ => ⟨0x04000000#32, 0xFFFFFF00#32⟩
  | .configDuty _ _ => ⟨0x05000000#32, 0xFFFF0000#32⟩
  | .presetA _ => ⟨0x06000000#32, 0xFFFFFF00#32⟩
  | .presetB _ => ⟨0x07000000#32, 0xFFFFFF00#32⟩
  | .bind _ => ⟨0x08000000#32, 0xFFFFFF00#32⟩
  | .unbind _ => ⟨0x09000000#32, 0xFFFFFF00#32⟩
  | .setup _ => ⟨0x0A000000#32, 0xFFFFFF00#32⟩
  | .close _ => ⟨0x0B000000#32, 0xFFFFFF00#32⟩

/-- R84, R85: the row stands in the table and the word of the command selects it. -/
def Statement (i : Instr) : Prop := row i ∈ opRows ∧ (row i).selects (encode i) = true

/-- A word of shape A, whatever its operand, under the mask of shape A. -/
theorem shapeA_masked (op a : Byte) : encodeFields op 0#8 a &&& 0xFFFFFF00#32 = op.setWidth 32 <<< 24 := by
  apply BitVec.eq_of_getLsbD_eq
  intro k hk
  interval_cases k <;> simp [encodeFields]

/-- A word of shape AB, whatever its operands, under the mask of shape AB. -/
theorem shapeAB_masked (op a b : Byte) : encodeFields op b a &&& 0xFFFF0000#32 = op.setWidth 32 <<< 24 := by
  apply BitVec.eq_of_getLsbD_eq
  intro k hk
  interval_cases k <;> simp [encodeFields]

theorem enable : Statement .enable := ⟨by decide, by decide⟩
theorem disable : Statement .disable := ⟨by decide, by decide⟩
theorem setTarget (value : Byte) : Statement (.setTarget value) :=
  ⟨by simp [row, opRows], by simp [OpRow.selects, row, encode, shapeA_masked]⟩
theorem setPrescale (value : Byte) : Statement (.setPrescale value) :=
  ⟨by simp [row, opRows], by simp [OpRow.selects, row, encode, shapeA_masked]⟩
theorem configDuty (duty m : Byte) : Statement (.configDuty duty m) :=
  ⟨by simp [row, opRows], by simp [OpRow.selects, row, encode, shapeAB_masked]⟩
theorem presetA (duty : Byte) : Statement (.presetA duty) :=
  ⟨by simp [row, opRows], by simp [OpRow.selects, row, encode, shapeA_masked]⟩
theorem presetB (duty : Byte) : Statement (.presetB duty) :=
  ⟨by simp [row, opRows], by simp [OpRow.selects, row, encode, shapeA_masked]⟩
theorem bind (pin : Byte) : Statement (.bind pin) :=
  ⟨by simp [row, opRows], by simp [OpRow.selects, row, encode, shapeA_masked]⟩
theorem unbind (pin : Byte) : Statement (.unbind pin) :=
  ⟨by simp [row, opRows], by simp [OpRow.selects, row, encode, shapeA_masked]⟩
theorem setup (pin : Byte) : Statement (.setup pin) :=
  ⟨by simp [row, opRows], by simp [OpRow.selects, row, encode, shapeA_masked]⟩
theorem close (pin : Byte) : Statement (.close pin) :=
  ⟨by simp [row, opRows], by simp [OpRow.selects, row, encode, shapeA_masked]⟩

end Sys2Proof.Laws.RowOfWord
end

