-- ==== Sys2Proof/Laws/Runs.lean ====
section
/-! SUPPORT. What a whole run of micro-steps, with every interleaving, keeps and changes. -/

namespace Sys2Proof.Machine

/-! ### What no access touches -/

/-- R57: an other agent's access keeps everything but the registers and the trace. -/
theorem busAccess_rest {a : BusAccess} {s t : State} (h : busAccess a s = .next t) :
    t.cfg = s.cfg ∧ t.busy = s.busy ∧ t.curCmd = s.curCmd ∧ t.upc = s.upc ∧ t.tmp = s.tmp ∧ t.fault = s.fault ∧
    t.stream = s.stream ∧ t.pc = s.pc ∧ t.sched = s.sched ∧ t.responses = s.responses := by
  rcases (busAccess_next h).2 with ⟨x, -, -, rfl⟩ | ⟨x, l, -, -, rfl⟩ <;> simp

/-- R57: a micro-step of the block keeps everything but the registers, `tmp`, `upc` and the trace. -/
theorem blockAccess_rest {op : MicroOp} {s t : State} (h : blockAccess op s = .next t) :
    t.cfg = s.cfg ∧ t.busy = s.busy ∧ t.curCmd = s.curCmd ∧ t.upc = s.upc + 1 ∧ t.fault = s.fault ∧
    t.stream = s.stream ∧ t.pc = s.pc ∧ t.sched = s.sched ∧ t.responses = s.responses := by
  rcases blockAccess_next h with ⟨a, v, -, -, rfl⟩ | ⟨a, v, l, -, -, rfl⟩ <;> simp

/-- R94, R150: no micro-step and no access within a command touches the inputs, the word in flight, the fault record or
the answers. -/
theorem runOps_rest {ops : List MicroOp} {s t : State} (h : runOps ops s = .next t) :
    t.cfg = s.cfg ∧ t.busy = s.busy ∧ t.curCmd = s.curCmd ∧ t.fault = s.fault ∧ t.stream = s.stream ∧ t.pc = s.pc ∧
    t.responses = s.responses := by
  refine runOps_keeps (P := fun u => u.cfg = s.cfg ∧ u.busy = s.busy ∧ u.curCmd = s.curCmd ∧ u.fault = s.fault ∧
    u.stream = s.stream ∧ u.pc = s.pc ∧ u.responses = s.responses) ?_ (fun _ _ hP => hP) ?_
    ⟨rfl, rfl, rfl, rfl, rfl, rfl, rfl⟩ h
  · intro a u v hP hv
    obtain ⟨h1, h2, h3, -, -, h4, h5, h6, -, h7⟩ := busAccess_rest hv
    simp only [h1, h2, h3, h4, h5, h6, h7]; exact hP
  · intro op _ u v hP hv
    obtain ⟨h1, h2, h3, -, h4, h5, h6, -, h7⟩ := blockAccess_rest hv
    simp only [h1, h2, h3, h4, h5, h6, h7]; exact hP

/-- R12, R57: the accesses of other agents before an action of the block leave everything but the registers, the trace and
the order. -/
theorem agentsBefore_rest {s t : State} (h : agentsBefore s = .next t) :
    t.cfg = s.cfg ∧ t.busy = s.busy ∧ t.curCmd = s.curCmd ∧ t.upc = s.upc ∧ t.tmp = s.tmp ∧ t.fault = s.fault ∧
    t.stream = s.stream ∧ t.pc = s.pc ∧ t.responses = s.responses := by
  refine agentsUntilBlock_keeps (P := fun u => u.cfg = s.cfg ∧ u.busy = s.busy ∧ u.curCmd = s.curCmd ∧ u.upc = s.upc ∧
    u.tmp = s.tmp ∧ u.fault = s.fault ∧ u.stream = s.stream ∧ u.pc = s.pc ∧ u.responses = s.responses) ?_
    (fun _ _ hP => hP) ⟨rfl, rfl, rfl, rfl, rfl, rfl, rfl, rfl, rfl⟩ h
  intro a u v hP hv
  obtain ⟨h1, h2, h3, h4, h5, h6, h7, h8, -, h9⟩ := busAccess_rest hv
  simp only [h1, h2, h3, h4, h5, h6, h7, h8, h9]; exact hP

/-! ### The well-formedness of the state -/

theorem writeLoc_wf {s : State} (hw : s.Wf) (l : Loc) (v : Word) : (s.writeLoc l v).Wf := by
  refine ⟨?_, ?_, ?_⟩ <;> simp <;> first | exact hw.1 | exact hw.2.1 | exact hw.2.2

theorem busAccess_wf {a : BusAccess} {s t : State} (h : busAccess a s = .next t) (hw : s.Wf) : t.Wf := by
  rcases (busAccess_next h).2 with ⟨x, -, -, rfl⟩ | ⟨x, l, -, -, rfl⟩
  · exact hw
  · exact writeLoc_wf hw l x

theorem blockAccess_wf {op : MicroOp} {s t : State} (h : blockAccess op s = .next t) (hw : s.Wf) : t.Wf := by
  rcases blockAccess_next h with ⟨a, v, -, -, rfl⟩ | ⟨a, v, l, -, -, rfl⟩
  · exact hw
  · exact writeLoc_wf hw l v

theorem agentsBefore_wf {s t : State} (h : agentsBefore s = .next t) (hw : s.Wf) : t.Wf :=
  agentsUntilBlock_keeps (P := State.Wf) (fun _ _ _ hP hv => busAccess_wf hv hP) (fun _ _ hP => hP) hw h

theorem runOps_wf {ops : List MicroOp} {s t : State} (h : runOps ops s = .next t) (hw : s.Wf) : t.Wf :=
  runOps_keeps (P := State.Wf) (fun _ _ _ hP hv => busAccess_wf hv hP) (fun _ _ hP => hP)
    (fun _ _ _ _ hP hv => blockAccess_wf hv hP) hw h

/-! ### The order of accesses -/

theorem agentsUntilBlock_sched {r : List Turn} {s t : State} (h : agentsUntilBlock r s = .next t) : t.sched <:+ r := by
  induction r generalizing s with
  | nil => cases h; simp
  | cons u r ih =>
    cases u with
    | block => cases h; exact List.suffix_cons _ _
    | agent a =>
      obtain ⟨v, -, hr⟩ := andThen_eq_next.mp h
      exact (ih hr).trans (List.suffix_cons _ _)

theorem runOps_sched {ops : List MicroOp} {s t : State} (h : runOps ops s = .next t) : t.sched <:+ s.sched := by
  induction ops generalizing s with
  | nil => cases h; exact List.suffix_refl _
  | cons op ops ih =>
    obtain ⟨u, hu, hr⟩ := andThen_eq_next.mp h
    obtain ⟨v, hv, hb⟩ := andThen_eq_next.mp hu
    exact (ih hr).trans (blockAccess_keeps_sched hb ▸ agentsUntilBlock_sched hv)

/-- R59: a run is refused only for an access of an other agent that still stands in the order. -/
theorem agentsUntilBlock_refused {r : List Turn} {s : State} {e : Refusal} (h : agentsUntilBlock r s = .refused e) :
    ∃ a, Turn.agent a ∈ r ∧ e = .undefinedAccess a := by
  induction r generalizing s with
  | nil => simp [agentsUntilBlock] at h
  | cons u r ih =>
    cases u with
    | block => simp [agentsUntilBlock] at h
    | agent a =>
      rcases andThen_eq_refused.mp h with h | ⟨v, -, h⟩
      · rcases busAccess_total a s with ⟨t, h'⟩ | h' <;> rw [h'] at h <;> simp at h
        exact ⟨a, by simp, h.symm⟩
      · obtain ⟨b, hb, he⟩ := ih h
        exact ⟨b, by simp [hb], he⟩

theorem runOps_refused {ops : List MicroOp} {s : State} {e : Refusal} (h : runOps ops s = .refused e) :
    ∃ a, Turn.agent a ∈ s.sched ∧ e = .undefinedAccess a := by
  induction ops generalizing s with
  | nil => simp [runOps] at h
  | cons op ops ih =>
    rcases andThen_eq_refused.mp h with h | ⟨u, hu, h⟩
    · rcases andThen_eq_refused.mp h with h | ⟨v, hv, h⟩
      · exact agentsUntilBlock_refused h
      · cases op <;> simp only [blockAccess, blockStore] at h <;> split at h <;> simp at h
    · obtain ⟨v, hv, hb⟩ := andThen_eq_next.mp hu
      obtain ⟨a, ha, he⟩ := ih h
      rw [blockAccess_keeps_sched hb] at ha
      exact ⟨a, (agentsUntilBlock_sched hv).subset ha, he⟩

/-! ### Frames -/

/-- A register reads the same in two states that hold the same registers under the same configuration. -/
theorem memRead_congr {s t : State} (h1 : t.cfg = s.cfg) (h2 : ∀ l, t.readLoc l = s.readLoc l) (b : Word) :
    t.memRead b = s.memRead b := by
  simp only [State.memRead, h1]
  cases locate s.cfg b with
  | none => rfl
  | some l => exact h2 l

@[simp] theorem memRead_log (s : State) (a : Access) (b : Word) : (s.log a).memRead b = s.memRead b :=
  memRead_congr rfl (fun l => by simp) b

@[simp] theorem memRead_start (s : State) (b : Word) : s.start.memRead b = s.memRead b :=
  memRead_congr rfl (fun l => by cases l <;> rfl) b

@[simp] theorem memRead_finish (s : State) (b : Word) : s.finish.memRead b = s.memRead b :=
  memRead_congr rfl (fun l => by cases l <;> rfl) b

@[simp] theorem memRead_raise (s : State) (c : Cause) (b : Word) : (s.raise c).memRead b = s.memRead b :=
  memRead_congr rfl (fun l => by cases l <;> rfl) b

theorem locate_port {c : Cfg} {a : Word} {l : Loc} (h : locate c a = some l) :
    (l = .outEnSet → a = c.outEnSetAddr) ∧ (l = .outEnClr → a = c.outEnClrAddr) := by
  unfold locate at h
  repeat' split at h
  all_goals first | (cases h; simp_all) | skip
  rcases locatePin_cases h with ⟨n, rfl⟩ | ⟨n, rfl⟩ <;> simp

theorem busAccess_frame {a : BusAccess} {s t : State} {b : Word} (h : busAccess a s = .next t)
    (hn : ¬ a.StoresTo s.cfg b) : t.memRead b = s.memRead b := by
  rcases (busAccess_next h).2 with ⟨x, -, -, rfl⟩ | ⟨x, l, ho, hl, rfl⟩
  · exact memRead_log ..
  · rw [memRead_log]
    refine State.memRead_writeLoc hl (fun he => hn ⟨⟨x, ho⟩, .inl he⟩) fun hb => ?_
    have hp := locate_port hl
    exact ⟨fun h' => hn ⟨⟨x, ho⟩, .inr ⟨hb, .inl (hp.1 h')⟩⟩, fun h' => hn ⟨⟨x, ho⟩, .inr ⟨hb, .inr (hp.2 h')⟩⟩⟩

/-- The address a micro-step stores to, if it stores. -/
def MicroOp.stores : MicroOp → Option Word
  | .read _ => none
  | .writeBack a _ _ => some a
  | .write a _ => some a

/-- R57: a micro-step changes what is read at `b`. -/
abbrev MicroOp.StoresTo (c : Cfg) (op : MicroOp) (b : Word) : Prop :=
  op.stores = some b ∨ (b = c.outEnAddr ∧ (op.stores = some c.outEnSetAddr ∨ op.stores = some c.outEnClrAddr))

theorem blockAccess_frame {op : MicroOp} {s t : State} {b : Word} (h : blockAccess op s = .next t)
    (hn : ¬ op.StoresTo s.cfg b) : t.memRead b = s.memRead b := by
  rcases blockAccess_next h with ⟨a, v, -, -, rfl⟩ | ⟨a, v, l, ho, hl, rfl⟩
  · exact memRead_congr rfl (fun k => by cases k <;> rfl) b
  · have hs : op.stores = some a := by rcases ho with rfl | ⟨k, i, rfl, -⟩ <;> rfl
    have e : (s.blockWrite l a v).memRead b = (s.writeLoc l v).memRead b :=
      memRead_congr (by simp) (fun k => by cases k <;> rfl) b
    rw [e]
    refine State.memRead_writeLoc hl (fun he => hn (.inl (he ▸ hs))) fun hb => ?_
    have hp := locate_port hl
    exact ⟨fun h' => hn (.inr ⟨hb, .inl (by rw [hs, hp.1 h'])⟩), fun h' => hn (.inr ⟨hb, .inr (by rw [hs, hp.2 h'])⟩)⟩

theorem agentsUntilBlock_frame {r : List Turn} {s t : State} {b : Word} (h : agentsUntilBlock r s = .next t)
    (hn : ∀ a, Turn.agent a ∈ r → ¬ a.StoresTo s.cfg b) : t.memRead b = s.memRead b ∧ t.cfg = s.cfg := by
  induction r generalizing s with
  | nil => cases h; exact ⟨rfl, rfl⟩
  | cons u r ih =>
    cases u with
    | block => cases h; exact ⟨rfl, rfl⟩
    | agent a =>
      obtain ⟨v, hv, hr⟩ := andThen_eq_next.mp h
      have hc := (busAccess_rest hv).1
      have := ih hr (fun c hc' => hc ▸ hn c (by simp [hc']))
      exact ⟨this.1.trans (busAccess_frame hv (hn a (by simp))), this.2.trans hc⟩

/-- A run of micro-steps leaves every register that none of them and no other agent stores to. -/
theorem runOps_frame {ops : List MicroOp} {s t : State} {b : Word} (h : runOps ops s = .next t)
    (hA : s.AgentsLeave b) (hB : ∀ op ∈ ops, ¬ op.StoresTo s.cfg b) : t.memRead b = s.memRead b := by
  induction ops generalizing s with
  | nil => cases h; rfl
  | cons op ops ih =>
    obtain ⟨u, hu, hr⟩ := andThen_eq_next.mp h
    obtain ⟨v, hv, hb⟩ := andThen_eq_next.mp hu
    have h1 := agentsUntilBlock_frame hv hA
    have h2 := blockAccess_frame hb (h1.2 ▸ hB op (by simp))
    have hc := (blockAccess_rest hb).1.trans h1.2
    rw [ih hr ?_ (fun o ho => hc ▸ hB o (by simp [ho])), h2, h1.1]
    intro a ha
    rw [hc]
    rw [blockAccess_keeps_sched hb] at ha
    exact hA a ((agentsUntilBlock_sched hv).subset ha)

theorem agentsBefore_frame {s t : State} {b : Word} (h : agentsBefore s = .next t) (hA : s.AgentsLeave b) :
    t.memRead b = s.memRead b := (agentsUntilBlock_frame h hA).1

/-! ### A whole command -/

/-- A whole command leaves every register that none of its micro-steps and no other agent stores to. A command that faults
has no micro-step (R152). -/
theorem exec_frame {i : Instr} {s t : State} {b : Word} (h : exec i s = .next t) (hA : s.AgentsLeave b)
    (hB : ∀ p, PinOf s.cfg i p → i.Wf s.cfg → ∀ op ∈ opsFor s.cfg p i, ¬ op.StoresTo s.cfg b) :
    t.memRead b = s.memRead b := by
  rcases exec_next h with ⟨c, u, -, hu, rfl⟩ | ⟨ops, u, v, hp, hr, hv, rfl⟩
  · rw [memRead_raise, agentsBefore_frame hu hA]
  · obtain ⟨p, hpo, rfl⟩ := planOf_run hp
    have hAu : u.AgentsLeave b := by
      intro a ha
      rw [(runOps_rest hr).1]
      exact hA a ((runOps_sched hr).subset ha)
    rw [memRead_finish, agentsBefore_frame hv hAu, runOps_frame hr hA (hB p hpo (wf_of_planOf_run hp)), memRead_start]

end Sys2Proof.Machine
end

