-- ==== Sys2Proof/Tests/Slice0.lean ====
section
/-! SUPPORT. Small checks of the model against spec/95_test_vectors.md (whose numbers are the expected results), one
ill-formed term for each check of WellFormed, and a witness for the hypotheses of each statement. -/

namespace Sys2Proof.Tests

open Sys2Proof.Machine

/-! ### Start states -/

/-- 95_test_vectors.md, part 3: the start state S0, with the given `SD_REG`. -/
def startSd (w : Word) : State :=
  State.resetOf refCfg ⟨w, List.replicate 16 0x00000584#32, List.replicate 16 0x000001B0#32, 0x00008001#32⟩

/-- 95_test_vectors.md, part 3: S0. -/
def s0 : State := startSd 0xABCD5A7F#32

/-- 95_test_vectors.md V-S3: the start state of V-S3, pin 4 bound. -/
def bound4 : State :=
  { startSd 0xABCD6FC8#32 with
    pinCtrl := (List.replicate 16 0x00000584#32).set 4 0x00000585#32, outEn := 0x00008011#32 }

/-- A word written by an other agent. -/
def agentWrites (addr v : Word) : Turn := .agent ⟨.write v, addr, .word⟩

/-- A word read by an other agent. -/
def agentReads (addr : Word) : Turn := .agent ⟨.read, addr, .word⟩

/-- A state with an order of accesses. -/
def under (sched : List Turn) (s : State) : State := { s with sched := sched }

/-- A field of the next state of a command. -/
def after {α : Type} (i : Instr) (s : State) (f : State → α) : Option α := (nextState? (exec i s)).map f

/-- The four kinds of registers at pin 4, after a command. -/
def regs4 (s : State) : List (Option Word) := [some s.sdReg, s.func[4]?, s.pinCtrl[4]?, some s.outEn]

/-- What an outcome has shown to be true of its next state. -/
theorem next_of_any {r : Result} {p : State → Prop} [DecidablePred p]
    (h : (nextState? r).any (fun t => decide (p t)) = true) : ∃ t, r = .next t ∧ p t := by
  cases r with
  | next t => exact ⟨t, rfl, by simpa [nextState?] using h⟩
  | fault e => simp [nextState?] at h
  | refused e => simp [nextState?] at h

/-! ### Decoding: words of 95_test_vectors.md 2.1 -/

theorem test_decode_enable : decode 0x01000000#32 = .ok .enable := by decide
theorem test_decode_disable : decode 0x02000000#32 = .ok .disable := by decide
theorem test_decode_setTarget : decode 0x030000C8#32 = .ok (.setTarget 200#8) := by decide
theorem test_decode_setPrescale : decode 0x0400006F#32 = .ok (.setPrescale 111#8) := by decide
theorem test_decode_configDuty : decode 0x050002C8#32 = .ok (.configDuty 200#8 2#8) := by decide
theorem test_decode_presetA : decode 0x06000002#32 = .ok (.presetA 2#8) := by decide
theorem test_decode_presetB : decode 0x070000C8#32 = .ok (.presetB 200#8) := by decide
theorem test_decode_bind : decode 0x08000004#32 = .ok (.bind 4#8) := by decide
theorem test_decode_unbind : decode 0x09000004#32 = .ok (.unbind 4#8) := by decide
theorem test_decode_setup : decode 0x0A000004#32 = .ok (.setup 4#8) := by decide
theorem test_decode_close : decode 0x0B000004#32 = .ok (.close 4#8) := by decide

/-- V-E12 to V-E19: words that select no command. -/
theorem test_decode_illegal :
    ([0x00000000#32, 0xFFFFFFFF#32, 0x0C000000#32, 0x01000001#32, 0x02000100#32, 0x03010005#32, 0x030001C8#32,
      0x08000104#32].all fun w => (decode w).toOption.isNone) = true := by decide

/-- V-E20 to V-E23: legal words, two of them with operands out of range. -/
theorem test_decode_by_value :
    decode 0x05000005#32 = .ok (.configDuty 5#8 0#8) ∧ decode 0x08000010#32 = .ok (.bind 16#8) ∧
    decode 0x03000000#32 = .ok (.setTarget 0#8) ∧ decode 0x0800000F#32 = .ok (.bind 15#8) := by decide

/-- V-E5: the assembly text and its word. -/
theorem test_assemble :
    assemble ["CONFIG_DUTY 200, 2 ; duty, m".toList, "  ".toList, "BIND 0x04".toList, "ENABLE".toList] =
      some [0x050002C8#32, 0x08000004#32, 0x01000000#32] ∧
    assemble ["SET_TARGET 256".toList] = none := by decide

/-! ### WellFormed: each check refuses an ill-formed term -/

/-- A configuration like `REFCFG` with `n` pins. -/
def withPins (n : Nat) : Cfg :=
  { refCfg with sdAddr := 0x70000000#32, outEnAddr := 0x70000004#32, outEnSetAddr := 0x70000008#32,
                outEnClrAddr := 0x7000000C#32, pins := (List.range n).map refPin }

theorem test_wf_refCfg : refCfg.Wf := by decide
theorem test_wf_one_and_32_pins : (withPins 1).Wf ∧ (withPins 32).Wf := by decide
theorem test_wf_refuses_pin_counts : ¬ (withPins 0).PinCountOk ∧ ¬ (withPins 33).PinCountOk := by decide
theorem test_wf_refuses_misaligned : ¬ (Cfg.AlignedOk { refCfg with sdAddr := 0x6000036A#32 }) := by decide
theorem test_wf_refuses_shared_address : ¬ (Cfg.DistinctOk { refCfg with sdAddr := 0x60000328#32 }) := by decide
theorem test_wf_refuses_function_bits : ¬ (Cfg.FuncBitsOk { refCfg with funcMask := 0x00000100#32 }) := by decide
theorem test_wf_refuses_base : ¬ (Cfg.BaseOk { refCfg with fBase := 0 }) := by decide
theorem test_wf_refuses_pin : PinOk refCfg 15#8 ∧ ¬ (Instr.Wf refCfg (.bind 16#8)) := by decide
theorem test_wf_refuses_multiplier : ¬ MultOk 0#8 ∧ ¬ (Instr.Wf refCfg (.configDuty 0#8 0#8)) := by decide
theorem test_wf_refuses_prescale :
    ¬ PrescaleOk 86#8 3#8 ∧ ¬ (Instr.Wf refCfg (.configDuty 170#8 3#8)) ∧ (Instr.Wf refCfg (.configDuty 171#8 3#8)) := by
  decide

/-! ### One command on a small state -/

/-- V-M1 -/
theorem test_enable : after .enable s0 (fun t => (t.sdReg, t.trace)) =
    some (0xABCD0000#32, [rd 0x60000368#32 0xABCD5A7F#32, wr 0x60000368#32 0xABCD0000#32]) := by decide
/-- V-M3, V-M4 -/
theorem test_disable : after .disable s0 State.sdReg = some 0xABCC0000#32 ∧
    after .disable (startSd 0xFFFFFFFF#32) State.sdReg = some 0xFFFE0000#32 := by decide
/-- V-M5, V-M6 -/
theorem test_setTarget : after (.setTarget 200#8) (startSd 0xABCD0000#32) State.sdReg = some 0xABCD00C8#32 ∧
    after (.setTarget 0#8) (startSd 0xFFFFFFFF#32) State.sdReg = some 0xFFFFFF00#32 := by decide
/-- V-M7, V-M8 -/
theorem test_setPrescale : after (.setPrescale 111#8) (startSd 0xABCD00C8#32) State.sdReg = some 0xABCD6FC8#32 ∧
    after (.setPrescale 255#8) (startSd 0x00000000#32) State.sdReg = some 0x0000FF00#32 := by decide
/-- V-C3, V-C9, V-C10 -/
theorem test_configDuty :
    after (.configDuty 85#8 3#8) (startSd 0xABCD6FC8#32) State.sdReg = some 0xABCDFE55#32 ∧
    after (.configDuty 64#8 4#8) (startSd 0xABCDFEFF#32) State.sdReg = some 0xABCDFF40#32 ∧
    after (.configDuty 0#8 255#8) (startSd 0xABCDFF40#32) State.sdReg = some 0xABCD0000#32 := by decide
/-- V-C4, V-C12 -/
theorem test_configDuty_faults :
    after (.configDuty 86#8 3#8) s0 (fun t => (t.responses, t.fault.cause, t.sdReg)) = some ([4#4], 4#3, 0xABCD5A7F#32) ∧
    after (.configDuty 0#8 0#8) s0 (fun t => (t.responses, t.fault.cause, t.trace)) = some ([3#4], 3#3, []) := by decide
/-- V-C2, and the row of duty 255 in 2.2 -/
theorem test_presetA : after (.presetA 2#8) (startSd 0xABCD0000#32) State.sdReg = some 0xABCD0102#32 ∧
    after (.presetA 255#8) (startSd 0x00000000#32) State.sdReg = some 0x000000FF#32 := by decide
/-- V-C1: the four accesses -/
theorem test_presetB : after (.presetB 200#8) s0 (fun t => (t.sdReg, t.trace)) =
    some (0xABCD6FC8#32,
      [rd 0x60000368#32 0xABCD5A7F#32, wr 0x60000368#32 0xABCD5AC8#32,
       rd 0x60000368#32 0xABCD5AC8#32, wr 0x60000368#32 0xABCD6FC8#32]) := by decide
/-- V-P1 -/
theorem test_bind : after (.bind 4#8) s0 (fun t => (regs4 t, t.trace)) =
    some ([some 0xABCD5A7F#32, some 0x00000080#32, some 0x00000585#32, some 0x00008011#32],
      [rd 0x60000810#32 0x000001B0#32, wr 0x60000810#32 0x00000080#32, rd 0x60000338#32 0x00000584#32,
       wr 0x60000338#32 0x00000585#32, wr 0x60000310#32 0x00000010#32]) := by decide
/-- V-P3, V-P6 -/
theorem test_bind_last_pin : after (.bind 15#8) s0 (fun t => (t.func[15]?, t.outEn)) = some (some 0x000000B0#32, 0x00008001#32) ∧
    after (.bind 16#8) s0 (fun t => (t.responses, t.trace)) = some ([2#4], []) := by decide
/-- V-P2 -/
theorem test_unbind : after (.unbind 4#8) { bound4 with func := s0.func.set 4 0x00000080#32 } (fun t => (regs4 t, t.trace)) =
    some ([some 0xABCD6FC8#32, some 0x00000080#32, some 0x00000584#32, some 0x00008001#32],
      [wr 0x60000314#32 0x00000010#32, rd 0x60000338#32 0x00000585#32, wr 0x60000338#32 0x00000584#32]) := by decide
/-- V-P5 -/
theorem test_unbind_plain_output : after (.unbind 0#8) s0 (fun t => (t.outEn, t.pinCtrl[0]?)) =
    some (0x00008000#32, some 0x00000584#32) := by decide
/-- V-S1 -/
theorem test_setup : after (.setup 4#8) s0 (fun t => (regs4 t, t.trace.length)) =
    some ([some 0xABCD0000#32, some 0x00000080#32, some 0x00000585#32, some 0x00008011#32], 7) := by decide
/-- V-S2 -/
theorem test_setup_faults : after (.setup 16#8) s0 (fun t => (t.sdReg, t.responses)) = some (0xABCD5A7F#32, [2#4]) := by decide
/-- V-S3, program P2 -/
theorem test_close : after (.close 4#8) bound4 (fun t => (regs4 t, t.trace)) =
    some ([some 0xABCC0000#32, some 0x000001B0#32, some 0x00000584#32, some 0x00008001#32],
      [wr 0x60000314#32 0x00000010#32, rd 0x60000338#32 0x00000585#32, wr 0x60000338#32 0x00000584#32,
       rd 0x60000368#32 0xABCD6FC8#32, wr 0x60000368#32 0xABCC0000#32]) := by decide
/-- V-S4 -/
theorem test_close_faults : after (.close 200#8) s0 (fun t => (t.sdReg, t.responses)) = some (0xABCD5A7F#32, [2#4]) := by decide

/-- P4: the lost update. The order Br Xr Xw Bw loses the agent's bit 20 (the agent writes what it read with bit 20 set). -/
theorem test_lost_update :
    after (.setTarget 0x40#8)
      (under [.block, agentReads 0x60000368#32, agentWrites 0x60000368#32 0x00110000#32, .block] (startSd 0x00010000#32))
      (fun t => (t.sdReg, t.responses)) = some (0x00010040#32, [0#4]) := by decide
/-- P4: the order Xr Xw Br Bw loses nothing. -/
theorem test_serialised_update :
    after (.setTarget 0x40#8)
      (under [agentReads 0x60000368#32, agentWrites 0x60000368#32 0x00110000#32, .block, .block] (startSd 0x00010000#32))
      State.sdReg = some 0x00110040#32 := by decide

/-- P3: a faulting command as a step; the record holds the command word. -/
theorem test_step_fault :
    (nextState? (step (s0.withFetchWord 32 0x08000010))).map (fun t => (t.fault, t.responses, t.pc, t.busy)) =
      some (⟨true, 2#3, 0x08000010#32⟩, [2#4], 1, false) := by decide
/-- P3: an illegal word after a fault leaves the record. -/
theorem test_step_illegal_after_fault :
    (nextState? (step ({ s0 with fault := ⟨true, 2#3, 0x08000010#32⟩ }.withFetchWord 32 0))).map
      (fun t => (t.fault, t.responses)) = some (⟨true, 2#3, 0x08000010#32⟩, [1#4]) := by decide
/-- R37: with nothing placed, the run from reset has ended. -/
theorem test_reset_run_ended : step State.reset = .refused .runEnded := by rfl
/-- R59: a read of a write-only port by an other agent is refused. -/
theorem test_port_read_refused :
    busAccess ⟨.read, 0x60000310#32, .word⟩ s0 = .refused (.undefinedAccess ⟨.read, 0x60000310#32, .word⟩) := by rfl
/-- The frequency view of 2.4: 312 500 Hz after PRESET_A 2, 40 MHz at target 128 and prescale 0, and the mixed state of
V-C1. -/
theorem test_freq : freq 80000000 2#8 1#8 = 312500 ∧ freq 80000000 128#8 0#8 = 40000000 ∧
    freq 80000000 200#8 90#8 = 2500000 / 13 := by
  norm_num [freq, fold]
/-- The mixed state of V-C1: two of four micro-steps made. -/
theorem test_micro_mixed_state :
    (nextState? (microRun 3 (s0.withFetchWord 32 0x070000C8))).map (fun t => (t.sdReg, t.busy, t.upc, t.tmp)) =
      some (0xABCD5AC8#32, true, 2, 0xABCD5A7F#32) := by decide

/-! ### Witnesses: a concrete state and operands for the hypotheses of each statement -/

/-- S0 with `BIND 4` presented to the idle block. -/
def presented : State := s0.withFetchWord 32 0x08000004

/-- S0 with `BIND 4` in flight, two of its five micro-steps made. -/
def inFlight4 : State := { presented with busy := true, curCmd := 0x08000004#32, upc := 2, sched := [] }

/-- S0 with the word `w` sampled, before its checks are answered. -/
def sampled (w : Word) : State := { s0.placeCommand w with busy := true, curCmd := w, sched := [] }

/-- Where the block's turn is next, no other agent's is. -/
theorem head_block {s : State} {q : List Turn} (h : s.sched = .block :: q) : ∀ a r, s.sched ≠ .agent a :: r := by
  intro a r h'
  rw [h] at h'
  cases h'

/-- Past the end of the order only the block acts. -/
theorem head_nil {s : State} (h : s.sched = []) : ∀ a r, s.sched ≠ .agent a :: r := by
  intro a r h'
  rw [h] at h'
  cases h'

/-- An order with a write of `OUT_EN` by an other agent between the first and the second access of the block. -/
def mixed : List Turn := [.block, agentWrites 0x6000030C#32 0x00000001#32, agentReads 0x60000368#32, .block]

/-- An order in which an other agent reads a write-only port. -/
def unlawful : List Turn := [agentReads 0x60000310#32]

theorem witness_EncodeInvertsDecode : decode 0x0500FFFF#32 = .ok (.configDuty 255#8 255#8) := by decide

/-- Words for the clauses of DecodeProcedure, at the ends of their ranges. -/
theorem witness_DecodeProcedure :
    ([0x00010000#32, 0x03FF0005#32].all fun w => zField w != 0#8) = true ∧
    ([(0x01000000#32, 0x01#8), (0x02000000#32, 0x02#8), (0x0500FFFF#32, 0x05#8), (0x030000FF#32, 0x03#8),
      (0x04000000#32, 0x04#8), (0x060000FF#32, 0x06#8), (0x07000000#32, 0x07#8), (0x080000FF#32, 0x08#8),
      (0x09000000#32, 0x09#8), (0x0A0000FF#32, 0x0A#8), (0x0B000000#32, 0x0B#8)].all
        fun p => zField p.1 == 0#8 && opField p.1 == p.2) = true ∧
    (opField 0x00000001#32 = 0x00#8 ∧ 0x0C#8 ≤ opField 0x0C000000#32 ∧ 0x0C#8 ≤ opField 0xFF000000#32) ∧
    (opField 0x08000104#32 ≠ 0x05#8 ∧ bField 0x08000104#32 ≠ 0#8) ∧
    (opField 0x01000001#32 = 0x01#8 ∧ aField 0x01000001#32 ≠ 0#8) ∧
    (opField 0x020000FF#32 = 0x02#8 ∧ aField 0x020000FF#32 ≠ 0#8) := by decide

theorem witness_StepRunsTheDecodedCommand :
    presented.busy = false ∧ (∀ a r, presented.sched ≠ .agent a :: r) ∧
    presented.stream[presented.pc]? = some 0x08000004#32 ∧ decode 0x08000004#32 = .ok (.bind 4#8) :=
  ⟨by decide, head_block (q := []) rfl, by decide, by decide⟩

theorem witness_PlacedWordRunsNext : decode 0x0B0000FF#32 = .ok (.close 255#8) := by decide

theorem witness_IllegalWordTakesItsFault :
    (s0.withFetchWord 32 0x0C000000).busy = false ∧ (s0.withFetchWord 32 0x0C000000).QuietFor 2 ∧
    (s0.withFetchWord 32 0x0C000000).stream[(s0.withFetchWord 32 0x0C000000).pc]? = some 0x0C000000#32 ∧
    ∀ i, decode 0x0C000000#32 ≠ .ok i :=
  ⟨by decide, by decide, by decide, fun i h => by
    have e : decode 0x0C000000#32 = .error (.opcode 0x0C#8) := by decide
    rw [e] at h
    cases h⟩

theorem witness_StepIsARunOfMicroSteps :
    presented.portAction ≠ .ended ∧ inFlight4.portAction ≠ .ended ∧ (under [agentReads 0x60000368#32] s0).portAction ≠ .ended := by
  decide

/-- With a word left to present, and with none. -/
theorem witness_AgentActsWhileTheBlockIsIdle :
    (under mixed.tail presented).busy = false ∧ (under mixed.tail presented).pc < (under mixed.tail presented).stream.length ∧
    (under mixed.tail presented).sched = .agent ⟨.write 0x00000001#32, 0x6000030C#32, .word⟩ :: mixed.tail.tail ∧
    (under mixed.tail s0).busy = false ∧ (under mixed.tail s0).stream.length ≤ (under mixed.tail s0).pc ∧
    (under mixed.tail s0).sched = .agent ⟨.write 0x00000001#32, 0x6000030C#32, .word⟩ :: mixed.tail.tail := by decide

/-- For the results of ENABLE, DISABLE, SET_TARGET, SET_PRESCALE, PRESET_A and PRESET_B: an order that is empty, and one in
which an other agent acts right after the block's answer. -/
theorem witness_QuietFor :
    s0.QuietFor 3 ∧ (under [.block, .block, .block, agentReads 0x60000368#32] s0).QuietFor 3 ∧ s0.QuietFor 5 ∧
    (under [.block, .block, .block, .block, .block, agentReads 0x60000368#32] s0).QuietFor 5 := by decide

/-- At the ends of the accepted domain: `m * fold(duty) = 256`, and duty 0. -/
theorem witness_ConfigDutyResult :
    s0.QuietFor 5 ∧ ((4#8).toNat ≠ 0 ∧ (4#8).toNat * fold 64#8 ≤ 256) ∧
    ((255#8).toNat ≠ 0 ∧ (255#8).toNat * fold 0#8 ≤ 256) := by decide

/-- For BIND and SETUP, at the last pin. -/
theorem witness_BindResult :
    s0.Wf ∧ s0.cfg.pins[(15#8).toNat]? = some (refPin 15) ∧ s0.func[(15#8).toNat]? = some 0x000001B0#32 ∧
    s0.pinCtrl[(15#8).toNat]? = some 0x00000584#32 ∧ s0.QuietFor 6 := by decide

/-- For UNBIND and CLOSE, at the first pin. -/
theorem witness_UnbindResult :
    s0.Wf ∧ s0.cfg.pins[(0#8).toNat]? = some (refPin 0) ∧ s0.pinCtrl[(0#8).toNat]? = some 0x00000584#32 ∧
    s0.QuietFor 4 := by decide

theorem witness_SetupResult :
    s0.Wf ∧ s0.cfg.pins[(4#8).toNat]? = some (refPin 4) ∧ s0.func[(4#8).toNat]? = some 0x000001B0#32 ∧
    s0.pinCtrl[(4#8).toNat]? = some 0x00000584#32 ∧ s0.QuietFor 8 := by decide

theorem witness_CloseResult :
    bound4.Wf ∧ bound4.cfg.pins[(4#8).toNat]? = some (refPin 4) ∧ bound4.pinCtrl[(4#8).toNat]? = some 0x00000585#32 ∧
    bound4.QuietFor 6 := by decide

/-- The accesses of the order `mixed` are lawful. -/
theorem mixed_lawful : (under mixed s0).Lawful := by
  intro a h
  simp only [under, mixed, agentWrites, agentReads, List.mem_cons, Turn.agent.injEq, reduceCtorEq, List.not_mem_nil,
    false_or, or_false] at h
  rcases h with rfl | rfl <;> decide

theorem witness_InRangeCommandCompletesUnderAnySchedule :
    (under mixed s0).Wf ∧ (under mixed s0).Lawful ∧ Instr.Wf (under mixed s0).cfg (.setup 15#8) ∧
    Instr.Wf (under mixed s0).cfg (.configDuty 85#8 3#8) :=
  ⟨by decide, mixed_lawful, by decide, by decide⟩

theorem witness_BlockAccessesKeepProgramOrder :
    Instr.Wf (under mixed s0).cfg (.close 4#8) ∧
    (∀ pin, pinOperand (.close 4#8) = some pin → (under mixed s0).cfg.pins[pin.toNat]? = some (refPin 4)) ∧
    ∃ t, exec (.close 4#8) (under mixed s0) = .next t ∧ t.busy = false :=
  ⟨by decide, fun pin h => by cases h; decide, next_of_any (by decide)⟩

theorem witness_BlockPreservesOtherBits :
    (under mixed s0).Wf ∧
    ∃ t, exec .enable (under mixed s0) = .next t ∧
      (blockAccesses (newAccesses (under mixed s0) t))[1]? = some (wr (under mixed s0).cfg.sdAddr 0xABCD0000#32) :=
  ⟨by decide, next_of_any (by decide)⟩

theorem witness_EarlierAccessesComeFirst :
    (under mixed.tail s0).sched = .agent ⟨.write 0x00000001#32, 0x6000030C#32, .word⟩ :: mixed.tail.tail := by decide

/-- A lawful list of accesses is lawful one by one, which can be evaluated. -/
theorem lawful_of_all {c : Cfg} {l : List BusAccess} (h : (l.all fun a => a.lawful c) = true) :
    ∀ a ∈ l, a.lawful c = true := fun a ha => List.all_eq_true.mp h a ha

/-- P4: the agent's read and its write of `SD_REG` with bit 20 set. -/
def sdRmw : List BusAccess := [⟨.read, 0x60000368#32, .word⟩, ⟨.write 0x00110000#32, 0x60000368#32, .word⟩]

/-- P4's order Br Xr Xw Bw, and an order with accesses before the read as well. -/
theorem witness_UpdateBetweenReadAndWriteIsLost :
    s0.Wf ∧ (∀ a ∈ [] ++ sdRmw, a.lawful s0.cfg = true) ∧
    (under [.block, agentReads 0x60000368#32, agentWrites 0x60000368#32 0x00110000#32, .block, .block] s0).sched =
      ([] : List BusAccess).map .agent ++ .block :: (sdRmw.map .agent ++ .block :: .block :: []) ∧
    (∀ a ∈ sdRmw ++ sdRmw, a.lawful s0.cfg = true) ∧
    (under (sdRmw.map .agent ++ .block :: (sdRmw.map .agent ++ .block :: .block :: [])) s0).sched =
      sdRmw.map .agent ++ .block :: (sdRmw.map .agent ++ .block :: .block :: []) :=
  ⟨by decide, lawful_of_all (by decide), by decide, lawful_of_all (by decide), rfl⟩

theorem witness_BindOverwritesConcurrentPinWrites :
    s0.Wf ∧ s0.cfg.pins[(4#8).toNat]? = some (refPin 4) ∧ s0.func[(4#8).toNat]? = some 0x000001B0#32 ∧
    s0.pinCtrl[(4#8).toNat]? = some 0x00000584#32 ∧
    (under [.block, agentWrites 0x60000810#32 1#32, .block, .block, agentWrites 0x60000338#32 2#32, .block, .block,
      .block] s0).sched =
      .block :: .agent ⟨.write 1#32, (refPin 4).funcAddr, .word⟩ :: .block :: .block ::
        .agent ⟨.write 2#32, (refPin 4).ctrlAddr, .word⟩ :: .block :: .block :: .block :: [] := by decide

/-- One order for each of the four clauses. -/
theorem witness_OutputEnableStepLosesNoUpdate :
    s0.Wf ∧ PinOk s0.cfg 15#8 ∧
    (under [.block, .block, .block, .block, agentWrites 0x60000310#32 1#32, .block, .block] s0).sched =
      .block :: .block :: .block :: .block :: .agent ⟨.write 1#32, s0.cfg.outEnSetAddr, .word⟩ :: .block :: .block :: [] ∧
    (under [.block, .block, .block, .block, agentWrites 0x60000314#32 1#32, .block, .block] s0).sched =
      .block :: .block :: .block :: .block :: .agent ⟨.write 1#32, s0.cfg.outEnClrAddr, .word⟩ :: .block :: .block :: [] ∧
    (under [agentWrites 0x60000310#32 1#32, .block, .block, .block, .block] s0).sched =
      .agent ⟨.write 1#32, s0.cfg.outEnSetAddr, .word⟩ :: .block :: .block :: .block :: .block :: [] ∧
    (under [agentWrites 0x60000314#32 1#32, .block, .block, .block, .block] s0).sched =
      .agent ⟨.write 1#32, s0.cfg.outEnClrAddr, .word⟩ :: .block :: .block :: .block :: .block :: [] := by decide

/-- The agents of the order `mixed` store to `OUT_EN` alone. -/
theorem mixed_leaves (addr : Word) (h : addr ≠ 0x6000030C#32) : (under mixed s0).AgentsLeave addr := by
  intro a ha
  simp only [under, mixed, agentWrites, agentReads, List.mem_cons, Turn.agent.injEq, reduceCtorEq, List.not_mem_nil,
    false_or, or_false] at ha
  rcases ha with rfl | rfl
  · rintro ⟨-, hs | ⟨hs, -⟩⟩
    · exact h hs.symm
    · exact h hs
  · rintro ⟨⟨v, hv⟩, -⟩
    cases hv

theorem witness_ModulatorAndConverterFrame :
    (under mixed s0).Wf ∧ (∃ t, exec (.presetB 200#8) (under mixed s0) = .next t ∧ t.busy = false) ∧
    (0x60000338#32 ≠ (under mixed s0).cfg.sdAddr) ∧ (under mixed s0).AgentsLeave 0x60000338#32 ∧
    Instr.Wf (under mixed s0).cfg (.presetB 200#8) :=
  ⟨by decide, next_of_any (by decide), by decide, mixed_leaves _ (by decide), by decide⟩

/-- Of pin 5's registers, while BIND and UNBIND act on pin 4. -/
theorem witness_PinBinderFrame :
    (under mixed s0).Wf ∧ 0x6000033C#32 ≠ (under mixed s0).cfg.outEnAddr ∧ (under mixed s0).AgentsLeave 0x6000033C#32 ∧
    (∀ p, (under mixed s0).cfg.pins[(4#8).toNat]? = some p → 0x6000033C#32 ≠ p.ctrlAddr) ∧
    (∀ p, (under mixed s0).cfg.pins[(4#8).toNat]? = some p → 0x6000033C#32 ≠ p.funcAddr) ∧
    (∃ t, exec (.unbind 4#8) (under mixed s0) = .next t ∧ t.busy = false) ∧
    (∃ t, exec (.bind 4#8) (under mixed s0) = .next t ∧ t.busy = false) :=
  ⟨by decide, by decide, mixed_leaves _ (by decide), fun p h => by cases h; decide, fun p h => by cases h; decide,
    next_of_any (by decide), next_of_any (by decide)⟩

theorem witness_CompositeFrame :
    0x6000033C#32 ≠ (under mixed s0).cfg.sdAddr ∧
    (∃ t, exec (.close 4#8) (under mixed s0) = .next t ∧ t.busy = false) ∧
    (∃ t, exec (.setup 4#8) (under mixed s0) = .next t ∧ t.busy = false) :=
  ⟨by decide, next_of_any (by decide), next_of_any (by decide)⟩

theorem witness_PinCommandsLeaveTheRest :
    pinOperand (.setup 15#8) = some 15#8 ∧ PinOk s0.cfg 15#8 ∧
    (∃ t, exec (.setup 15#8) s0 = .next t ∧ t.busy = false) ∧
    (∃ t, exec (.setup 16#8) s0 = .next t ∧ t.busy = false) :=
  ⟨by decide, by decide, next_of_any (by decide), next_of_any (by decide)⟩

theorem witness_PinOutOfRangeFaults :
    pinOperand (.unbind 16#8) = some 16#8 ∧ s0.cfg.npins ≤ (16#8).toNat ∧ s0.cfg.npins ≤ (255#8).toNat ∧
    s0.QuietFor 1 ∧ (under [.block, agentReads 0x60000368#32] s0).QuietFor 1 := by decide

theorem witness_ZeroMultiplierFaults :
    s0.QuietFor 1 ∧ (under [.block, agentReads 0x60000368#32] s0).QuietFor 1 := by decide

/-- The smallest value above 255 a multiplier 3 gives; the presets at the largest folded value. -/
theorem witness_PrescaleOutOfRangeFaults :
    (1 ≤ (3#8).toNat ∧ 1 ≤ fold 86#8 ∧ (3#8).toNat * fold 86#8 - 1 > 255 ∧ s0.QuietFor 1) ∧
    (∃ t, exec (.presetA 128#8) s0 = .next t ∧ t.sdPrescale = 127#8) ∧
    (∃ t, exec (.presetB 128#8) s0 = .next t ∧ t.sdPrescale = 255#8) :=
  ⟨by decide, next_of_any (by decide), next_of_any (by decide)⟩

theorem witness_FaultingCommandRecordsItsWord :
    (s0.withFetchWord 32 0x05000380).busy = false ∧ (s0.withFetchWord 32 0x05000380).QuietFor 2 ∧
    (s0.withFetchWord 32 0x05000380).stream[(s0.withFetchWord 32 0x05000380).pc]? = some 0x05000380#32 ∧
    decode 0x05000380#32 = .ok (.configDuty 128#8 3#8) ∧
    ¬ Instr.Wf (s0.withFetchWord 32 0x05000380).cfg (.configDuty 128#8 3#8) := by decide

/-- Both sides of the equivalence occur. -/
theorem witness_OnlyOperandsDecideFaults :
    (∃ t, exec (.bind 15#8) (under mixed s0) = .next t ∧ t.responses = s0.responses ++ [0#4]) ∧
    (∃ t, exec (.bind 16#8) (under mixed s0) = .next t ∧ t.responses ≠ s0.responses ++ [0#4]) :=
  ⟨next_of_any (by decide), next_of_any (by decide)⟩

/-- A presented word each of whose readings, if any, is out of range. -/
theorem out_of_range {c : Cfg} {w : Word} {i : Instr} (hd : decode w = .ok i) (hn : ¬ i.Wf c) :
    ∀ j, decode w = .ok j → ¬ j.Wf c := by
  intro j hj
  rw [hd] at hj
  cases hj
  exact hn

/-- The first clause, for each of the four causes: an illegal word, a pin, a multiplier 0, a prescale; with the word to be
presented, and with the word sampled. -/
theorem witness_FaultRecordKeepsTheFirst_presented :
    ([0x0C000000, 0x08000010, 0x05000000, 0x05000356].all fun w =>
      (s0.withFetchWord 32 w).busy == false &&
      (s0.withFetchWord 32 w).stream[(s0.withFetchWord 32 w).pc]? == some (BitVec.ofNat 32 w) &&
      (sampled (BitVec.ofNat 32 w)).busy && (sampled (BitVec.ofNat 32 w)).curCmd == BitVec.ofNat 32 w) = true ∧
    (∀ w, (∀ a r, (s0.withFetchWord 32 w).sched ≠ .agent a :: r) ∧ (s0.withFetchWord 32 w).Wf ∧
      (s0.withFetchWord 32 w).Lawful) ∧
    (∀ w a r, (sampled w).sched ≠ .agent a :: r) ∧
    (∀ i, decode 0x0C000000#32 ≠ .ok i) ∧ (∀ i, decode 0x08000010#32 = .ok i → ¬ i.Wf refCfg) ∧
    (∀ i, decode 0x05000000#32 = .ok i → ¬ i.Wf refCfg) ∧ (∀ i, decode 0x05000356#32 = .ok i → ¬ i.Wf refCfg) ∧
    pinOperand (.bind 16#8) = some 16#8 :=
  ⟨by decide, fun _ => ⟨head_block (q := []) rfl, (show s0.Wf by decide), fun a h => by
      simp [State.withFetchWord, State.placeCommand, s0, startSd, State.resetOf] at h⟩,
    fun _ => head_nil rfl, witness_IllegalWordTakesItsFault.2.2.2,
    out_of_range (i := .bind 16#8) (by decide) (by decide),
    out_of_range (i := .configDuty 0#8 0#8) (by decide) (by decide),
    out_of_range (i := .configDuty 86#8 3#8) (by decide) (by decide), rfl⟩

/-- The other clauses: a valid record through a step, a micro-step, an other agent's access and a later fault; an empty one
that a step fills, and one that a command fills. -/
theorem witness_FaultRecordKeepsTheFirst :
    (∃ t, step { presented with fault := ⟨true, 2#3, 0x08000010#32⟩ } = .next t ∧ t.busy = false) ∧
    (∃ t, microStep { presented with fault := ⟨true, 2#3, 0x08000010#32⟩ } = .next t ∧ t.busy = true) ∧
    (∃ t, step (s0.withFetchWord 32 0) = .next t ∧ t.fault ≠ (s0.withFetchWord 32 0).fault) ∧
    (∃ t, busAccess ⟨.write 1#32, 0x60000368#32, .word⟩ { s0 with fault := ⟨true, 2#3, 0x08000010#32⟩ } = .next t ∧
      t.sdReg = 1#32) ∧
    (¬ Instr.Wf s0.cfg (.bind 16#8) ∧ s0.fault.valid = false ∧ (∃ t, exec (.bind 16#8) s0 = .next t ∧ t.busy = false) ∧
      ∃ t, exec (.bind 16#8) { s0 with fault := ⟨true, 4#3, 0x05000380#32⟩ } = .next t ∧ t.busy = false) :=
  ⟨next_of_any (by decide), next_of_any (by decide), next_of_any (by decide), next_of_any (by decide), by decide,
    by decide, next_of_any (by decide), next_of_any (by decide)⟩

/-- A state with a command in flight that meets the invariant. -/
theorem inFlight4_inv : inFlight4.Inv :=
  ⟨by decide, by decide, by decide, by decide⟩

/-- A word that faults, sampled and not yet answered, meets the invariant. -/
theorem sampled_inv : (sampled 0x08000010#32).Inv := ⟨by decide, by decide, by decide, by decide⟩

theorem presented_inv : presented.Inv := ⟨by decide, fun h => absurd h (by decide), by decide, by decide⟩

theorem witness_StepsKeepTheInvariant :
    presented.Inv ∧ inFlight4.Inv ∧ (∃ t, step presented = .next t ∧ t.busy = false) ∧
    (∃ t, step inFlight4 = .next t ∧ t.upc = 5) ∧ (∃ t, microStep inFlight4 = .next t ∧ t.upc = 3) ∧
    (sampled 0x08000010#32).Inv ∧ ∃ t, microStep (sampled 0x08000010#32) = .next t ∧ t.responses = [2#4] :=
  ⟨presented_inv, inFlight4_inv, next_of_any (by decide), next_of_any (by decide), next_of_any (by decide),
    sampled_inv, next_of_any (by decide)⟩

theorem witness_ResetMeetsTheInvariant :
    refCfg.Wf ∧ s0.pinCtrl.length = refCfg.npins ∧ s0.func.length = refCfg.npins ∧ (withPins 32).Wf ∧
    (zeroContents (withPins 32)).pinCtrl.length = (withPins 32).npins := by decide

/-- Each of the three outcomes occurs from a state that meets the invariant. -/
theorem witness_BlockNeverLeavesItsRegisters :
    inFlight4.Inv ∧ (∃ t, step inFlight4 = .next t ∧ t.upc = 5) ∧
    s0.Inv ∧ step s0 = .refused .runEnded ∧
    (under unlawful s0).Inv ∧
    step (under unlawful s0) = .refused (.undefinedAccess ⟨.read, 0x60000310#32, .word⟩) :=
  ⟨inFlight4_inv, next_of_any (by decide), ⟨by decide, fun h => absurd h (by decide), by decide, by decide⟩, by rfl,
    ⟨by decide, fun h => absurd h (by decide), by decide, by decide⟩, by rfl⟩

theorem witness_ScheduleOnlyShrinks :
    (under mixed s0).Lawful ∧ ∃ t, step (under mixed.tail s0) = .next t ∧ t.sched.length = 2 :=
  ⟨mixed_lawful, next_of_any (by decide)⟩

/-- At the registers of the first and the last pin, and at the two single registers. -/
theorem witness_ReadReturnsTheLastWrite :
    s0.Wf ∧ s0.memRead 0x60000328#32 = some 0x00000584#32 ∧ s0.memRead 0x6000083C#32 = some 0x000001B0#32 ∧
    s0.memRead 0x60000368#32 = some 0xABCD5A7F#32 ∧ s0.memRead 0x6000030C#32 = some 0x00008001#32 ∧
    (s0.memWrite 0x60000310#32 0x00000010#32).isSome = true := by decide

/-- At the first and the last pin, and a word that differs from `SD_REG` in enable alone. -/
theorem witness_OutputEnablePorts :
    s0.Wf ∧ s0.cfg.pins[0]? = some (refPin 0) ∧ s0.cfg.pins[15]? = some (refPin 15) ∧
    0xABCC5A7F#32 = s0.sdReg ^^^ 0x00010000#32 ∧ (s0.memWrite s0.cfg.sdAddr 0xABCC5A7F#32).isSome = true := by decide

/-- A lawful read and a lawful write; a read of a port, an address outside the map, a narrow and a misaligned access. -/
theorem witness_UndefinedAccessesAreRefused :
    s0.Wf ∧ (⟨.read, 0x60000368#32, .word⟩ : BusAccess).lawful s0.cfg = true ∧
    (⟨.write 1#32, 0x60000314#32, .word⟩ : BusAccess).lawful s0.cfg = true ∧
    (⟨.read, 0x60000314#32, .word⟩ : BusAccess).lawful s0.cfg = false ∧
    (⟨.write 1#32, 0x60000000#32, .word⟩ : BusAccess).lawful s0.cfg = false ∧
    (⟨.read, 0x60000368#32, .byte⟩ : BusAccess).lawful s0.cfg = false ∧
    (⟨.read, 0x60000369#32, .word⟩ : BusAccess).lawful s0.cfg = false := by decide

/-- At the ends of the domain of multiplier 3, at multipliers 1 and 2, and at the ends of the last range. -/
theorem witness_ConverterAcceptedDomain :
    (under mixed s0).Wf ∧ (under mixed s0).Lawful ∧ (1 ≤ (3#8).toNat ∧ fold 171#8 ≤ maxFold 3 ∧ ¬ fold 170#8 ≤ maxFold 3) ∧
    (1 ≤ (1#8).toNat ∧ 1 ≤ (2#8).toNat) ∧ (129 ≤ 129 ∧ 129 ≤ 255) ∧ (129 ≤ 255 ∧ 255 ≤ 255) :=
  ⟨by decide, mixed_lawful, by decide⟩

theorem witness_ConversionSelectsTheFrequencyClass :
    s0.QuietFor 5 ∧ (3#8).toNat ≠ 0 ∧ (3#8).toNat * fold 85#8 ≤ 256 ∧
    (∃ t, exec (.configDuty 85#8 3#8) s0 = .next t ∧ t.busy = false) ∧
    (∃ t, exec (.configDuty 0#8 3#8) s0 = .next t ∧ t.busy = false) :=
  ⟨by decide, by decide, by decide, next_of_any (by decide), next_of_any (by decide)⟩

theorem witness_BindThenUnbind :
    s0.Wf ∧ s0.cfg.pins[(4#8).toNat]? = some (refPin 4) ∧ s0.func[(4#8).toNat]? = some 0x000001B0#32 ∧
    s0.pinCtrl[(4#8).toNat]? = some 0x00000584#32 ∧ s0.sched = [] := by decide

theorem witness_UnbindIsIdempotent :
    s0.Wf ∧ PinOk s0.cfg 4#8 ∧ s0.sched = [] ∧ s0.srcSelected 4 = false ∧ s0.outputEnabled 4 = false := by decide

theorem witness_TargetAndPrescaleCommute : s0.sched = [] := by decide

theorem witness_CompositesAreTheirTwoCommands :
    PinOk (under mixed s0).cfg 15#8 ∧ (∃ t, exec (.setup 15#8) (under mixed s0) = .next t ∧ t.busy = false) ∧
    (∃ t, exec (.close 15#8) (under mixed s0) = .next t ∧ t.busy = false) :=
  ⟨by decide, next_of_any (by decide), next_of_any (by decide)⟩

theorem witness_OtherPinsShareTheModulator :
    bound4.Wf ∧ PinOk bound4.cfg 5#8 ∧ 4 ≠ (5#8).toNat ∧ bound4.bound 4 = true ∧ bound4.sched = [] := by decide

/-- Words that fault, illegal and out of range, with another agent's write before the answer. -/
theorem witness_FaultingWordTouchesNoRegister :
    (under mixed presented).busy = false ∧ (∀ a r, (under mixed presented).sched ≠ .agent a :: r) ∧
    (s0.withFetchWord 32 0x08000010).stream[(s0.withFetchWord 32 0x08000010).pc]? = some 0x08000010#32 ∧
    (∀ i, decode 0x08000010#32 = .ok i → ¬ i.Wf refCfg) ∧ (∀ i, decode 0x0C000000#32 = .ok i → ¬ i.Wf refCfg) ∧
    (∃ t, step (under mixed (s0.withFetchWord 32 0x08000010)) = .next t ∧ t.outEn = 1#32 ∧ t.responses = [2#4]) ∧
    (∃ t, step (under mixed (s0.withFetchWord 32 0x0C000000)) = .next t ∧ t.outEn = 1#32 ∧ t.responses = [1#4]) ∧
    (under mixed s0).AgentsLeave 0x60000368#32 :=
  ⟨by decide, head_block (q := mixed.tail) rfl, by decide, out_of_range (i := .bind 16#8) (by decide) (by decide),
    fun i h => absurd h (witness_IllegalWordTakesItsFault.2.2.2 i), next_of_any (by decide), next_of_any (by decide),
    mixed_leaves _ (by decide)⟩

/-- An agent's turn with the block idle and a word left, busy before an access, and busy before the answer; and one that
stands after three turns of the block. -/
theorem witness_AgentActsAtAnyPoint :
    (∃ t, microStep (under mixed.tail presented) = .next t ∧ t.outEn = 1#32 ∧ t.busy = false ∧ t.pc = 0) ∧
    ((under mixed.tail inFlight4).busy = true ∧ ∃ t, step (under mixed.tail inFlight4) = .next t ∧ t.outEn = 0x11#32) ∧
    (∃ t, microStep (under mixed.tail { inFlight4 with upc := 5 }) = .next t ∧ t.outEn = 1#32 ∧ t.busy = true) ∧
    (under [.block, .block, .block, agentReads 0x60000368#32] presented).sched =
      List.replicate 3 .block ++ .agent ⟨.read, 0x60000368#32, .word⟩ :: [] ∧
    ∃ t, microRun 4 (under [.block, .block, .block, agentReads 0x60000368#32] presented) = .next t ∧ t.upc = 2 :=
  ⟨next_of_any (by decide), ⟨by decide, next_of_any (by decide)⟩, next_of_any (by decide), by decide,
    next_of_any (by decide)⟩

end Sys2Proof.Tests
end

/-! PROOFS of the statements of 00_scope.md. The step of a whole command against the machine one micro-step at a time, and the invariant both keep. -/

namespace Sys2Proof.Machine

/-! ### The order of turns: who acts next -/

theorem andThen_congr {r : Result} {f g : State → Result} (h : ∀ t, r = .next t → f t = g t) :
    andThen r f = andThen r g := by
  cases r with
  | next t => exact h t rfl
  | fault e => rfl
  | refused e => rfl

/-- R12: an other agent's access reads and writes registers and logs itself, so it commutes with every update that does
none of these. -/
theorem busAccess_comm {f : State → State} (hcfg : ∀ s, (f s).cfg = s.cfg)
    (hread : ∀ s l, (f s).readLoc l = s.readLoc l) (hwrite : ∀ s l v, (f s).writeLoc l v = f (s.writeLoc l v))
    (hlog : ∀ s x, (f s).log x = f (s.log x)) (a : BusAccess) (s : State) :
    busAccess a (f s) = andThen (busAccess a s) (fun t => .next (f t)) := by
  have hr : (f s).memRead a.addr = s.memRead a.addr := memRead_congr (hcfg s) (hread s) a.addr
  have hw : ∀ v, (f s).memWrite a.addr v = (s.memWrite a.addr v).map f := by
    intro v
    simp only [State.memWrite, hcfg]
    cases locate s.cfg a.addr <;> simp [hwrite]
  unfold busAccess
  by_cases haw : a.wholeWord = true
  · cases a.op with
    | read => cases hm : s.memRead a.addr <;> simp [haw, hr, hm, hlog]
    | write v => cases hm : s.memWrite a.addr v <;> simp [haw, hw, hm, hlog]
  · simp [haw]

/-- The order of the agents is no input of an access. -/
theorem busAccess_sched (a : BusAccess) (s : State) (r : List Turn) :
    busAccess a { s with sched := r } = andThen (busAccess a s) (fun t => .next { t with sched := r }) :=
  busAccess_comm (f := fun u => { u with sched := r }) (fun _ => rfl) (fun _ l => by cases l <;> rfl)
    (fun _ l _ => by cases l <;> rfl) (fun _ _ => rfl) a s

/-- Nor is whether a command has started. -/
theorem busAccess_start (a : BusAccess) (s : State) :
    busAccess a s.start = andThen (busAccess a s) (fun t => .next t.start) :=
  busAccess_comm (f := State.start) (fun _ => rfl) (fun _ l => by cases l <;> rfl)
    (fun _ l _ => by cases l <;> rfl) (fun _ _ => rfl) a s

theorem agentsUntilBlock_of_sched (r q : List Turn) (s : State) :
    agentsUntilBlock r { s with sched := q } = agentsUntilBlock r s := by
  induction r generalizing s with
  | nil => rfl
  | cons u r ih =>
    cases u with
    | block => rfl
    | agent a =>
      simp only [agentsUntilBlock, busAccess_sched, andThen_assoc]
      exact andThen_congr fun t _ => ih t

/-- R12: the agent whose turn comes acts, and then the agents left. -/
theorem agentsBefore_agent {s : State} {a : BusAccess} {r : List Turn} (h : s.sched = .agent a :: r) :
    agentsBefore s = andThen (busAccess a { s with sched := r }) agentsBefore := by
  simp only [agentsBefore, h, agentsUntilBlock, busAccess_sched, andThen_assoc]
  exact andThen_congr fun t _ => (agentsUntilBlock_of_sched r r t).symm

/-- When no agent's turn comes, the block's action is next. -/
theorem agentsBefore_block {s : State} (h : ∀ a r, s.sched ≠ .agent a :: r) :
    agentsBefore s = .next s.takeTurn := by
  unfold agentsBefore State.takeTurn
  cases hs : s.sched with
  | nil => rfl
  | cons u r =>
    cases u with
    | block => rfl
    | agent a => exact absurd hs (h a r)

theorem answer_agent {f : State → State} {s : State} {a : BusAccess} {r : List Turn} (h : s.sched = .agent a :: r) :
    answer f s = andThen (busAccess a { s with sched := r }) (answer f) := by
  simp only [answer, agentsBefore_agent h, andThen_assoc]
  rfl

theorem perform_cons (op : MicroOp) (ops : List MicroOp) (s : State) :
    perform (op :: ops) s = andThen (agentsBefore s) (fun u => andThen (blockAccess op u) (perform ops)) := by
  simp only [perform, runOps, andThen_assoc]
  rfl

theorem perform_agent (ops : List MicroOp) {s : State} {a : BusAccess} {r : List Turn} (h : s.sched = .agent a :: r) :
    perform ops s = andThen (busAccess a { s with sched := r }) (perform ops) := by
  cases ops with
  | nil => exact answer_agent h
  | cons op ops =>
    simp only [perform_cons, agentsBefore_agent h, andThen_assoc]
    exact andThen_congr fun t _ => (perform_cons op ops t).symm

theorem transact_agent (p : Plan) {s : State} {a : BusAccess} {r : List Turn} (h : s.sched = .agent a :: r) :
    transact p s = andThen (busAccess a { s with sched := r }) (transact p) := by
  cases p with
  | raise c => exact answer_agent h
  | run ops =>
    have hstart : ({ s.start with sched := r } : State) = State.start { s with sched := r } := rfl
    rw [transact_run, perform_agent ops (s := s.start) h, hstart, busAccess_start, andThen_assoc]
    rfl

/-! ### The command in flight -/

@[simp] theorem State.takeTurn_inFlight (s : State) : s.takeTurn.inFlight = s.inFlight := rfl

theorem Plan.drop_length (n : Nat) (p : Plan) : (p.drop n).length = p.length - n := by
  cases p with
  | raise c => simp [Plan.drop, Plan.length]
  | run ops => simp [Plan.drop, Plan.length]

/-- R194 -/
theorem wordPlan_length_le (c : Cfg) (cmd : Word) : (wordPlan c cmd).length ≤ 7 := by
  unfold wordPlan
  split
  · simp [Plan.length]
  · rename_i i _
    cases hp : planOf c i with
    | raise e => simp [Plan.length]
    | run ops =>
      obtain ⟨p, -, rfl⟩ := planOf_run hp
      exact opsFor_length c p i

theorem inFlight_length (s : State) : s.inFlight.length = (wordPlan s.cfg s.curCmd).length - s.upc :=
  Plan.drop_length _ _

theorem inFlight_congr {s t : State} (hc : t.cfg = s.cfg) (hw : t.curCmd = s.curCmd) (hu : t.upc = s.upc) :
    t.inFlight = s.inFlight := by
  simp only [State.inFlight, hc, hw, hu]

theorem busAccess_inFlight {a : BusAccess} {s t : State} {r : List Turn}
    (h : busAccess a { s with sched := r } = .next t) : t.inFlight = s.inFlight := by
  obtain ⟨hc, -, hw, hu, -⟩ := busAccess_rest h
  exact inFlight_congr hc hw hu

/-- R34: an access of the block leaves the rest of its command in flight. -/
theorem blockAccess_inFlight {op o : MicroOp} {ops : List MicroOp} {s t : State} (hf : s.inFlight = .run (o :: ops))
    (h : blockAccess op s = .next t) : t.inFlight = .run ops := by
  obtain ⟨hc, -, hw, hu, -⟩ := blockAccess_rest h
  unfold State.inFlight at hf ⊢
  rw [hc, hw, hu]
  cases hp : wordPlan s.cfg s.curCmd with
  | raise c => simp [hp, Plan.drop] at hf
  | run all =>
    simp only [hp, Plan.drop, Plan.run.injEq] at hf ⊢
    rw [← List.tail_drop, hf, List.tail_cons]

theorem resume_raise {s : State} {c : Cause} (h : s.inFlight = .raise c) : resume s = performRaise c s := by
  simp [resume, h]

theorem resume_run {s : State} {ops : List MicroOp} (h : s.inFlight = .run ops) : resume s = perform ops s := by
  simp [resume, h]

/-- R81: a word just sampled is in flight with its whole plan. -/
theorem resume_sample (s : State) (cmd : Word) :
    resume (s.sample cmd) = transact (wordPlan s.cfg cmd) (s.sample cmd) := by
  have hf : (s.sample cmd).inFlight = (wordPlan s.cfg cmd).drop 0 := rfl
  cases hp : wordPlan s.cfg cmd with
  | raise c => exact resume_raise (by simp [hf, hp, Plan.drop])
  | run ops => exact resume_run (by simp [hf, hp, Plan.drop])

/-- R12: a busy block goes on after the access of the agent whose turn comes. -/
theorem resume_agent {s : State} {a : BusAccess} {r : List Turn} (h : s.sched = .agent a :: r) :
    resume s = andThen (busAccess a { s with sched := r }) resume := by
  cases hf : s.inFlight with
  | raise c =>
    rw [resume_raise hf, performRaise, answer_agent h]
    exact andThen_congr fun t ht => (resume_raise ((busAccess_inFlight ht).trans hf)).symm
  | run ops =>
    rw [resume_run hf, perform_agent ops h]
    exact andThen_congr fun t ht => (resume_run ((busAccess_inFlight ht).trans hf)).symm

/-- R59: a command in flight is refused only for an access of an other agent that stands in the order. -/
theorem resume_refused {s : State} {e : Refusal} (h : resume s = .refused e) :
    ∃ a, Turn.agent a ∈ s.sched ∧ e = .undefinedAccess a := by
  have hans : ∀ (f : State → State) (u : State), answer f u = .refused e →
      ∃ a, Turn.agent a ∈ u.sched ∧ e = .undefinedAccess a := by
    intro f u hu
    rcases andThen_eq_refused.mp hu with hu | ⟨v, -, hv⟩
    · exact agentsUntilBlock_refused hu
    · simp at hv
  cases hf : s.inFlight with
  | raise c => exact hans _ s (resume_raise hf ▸ h)
  | run ops =>
    rw [resume_run hf] at h
    rcases andThen_eq_refused.mp h with h | ⟨u, hu, h⟩
    · exact runOps_refused h
    · obtain ⟨a, ha, he⟩ := hans _ u h
      exact ⟨a, (runOps_sched hu).subset ha, he⟩

/-! ### What a step is, by what happens next -/

theorem step_busy {s : State} (hb : s.busy = true) : step s = resume s := by
  simp [step, State.portAction, hb]

theorem step_agent {s : State} {a : BusAccess} {r : List Turn} (hb : s.busy = false) (h : s.sched = .agent a :: r) :
    step s = busAccess a { s with sched := r } := by
  simp [step, State.portAction, hb, h, agentAlone]

/-- R12, R81: an idle block whose turn it is looks at the host's stream. -/
theorem portAction_idle {s : State} (hb : s.busy = false) (h : ∀ a r, s.sched ≠ .agent a :: r) :
    s.portAction = (s.stream[s.pc]?).elim .ended .present := by
  unfold State.portAction
  rw [hb]
  cases hs : s.sched with
  | nil => cases s.stream[s.pc]? <;> rfl
  | cons u r =>
    cases u with
    | block => cases s.stream[s.pc]? <;> rfl
    | agent a => exact absurd hs (h a r)

/-- R81: the step of a presented word, legal or not, is the rest of the command from the state that has sampled it. -/
theorem step_present {s : State} {cmd : Word} (hb : s.busy = false) (h : ∀ a r, s.sched ≠ .agent a :: r)
    (hc : s.stream[s.pc]? = some cmd) : step s = resume (s.takeTurn.sample cmd) := by
  rw [resume_sample]
  simp only [step, portAction_idle hb h, hc, Option.elim_some, wordPlan]
  cases decode cmd with
  | error e => rfl
  | ok i => exact exec_eq_transact i _

theorem step_ended {s : State} (h : s.portAction = .ended) : step s = .refused .runEnded := by
  simp [step, h]

/-- R18, R37 -/
theorem portAction_eq_ended {s : State} :
    s.portAction = .ended ↔ s.busy = false ∧ s.stream.length ≤ s.pc ∧ ∀ a r, s.sched ≠ .agent a :: r := by
  cases hb : s.busy with
  | true => simp [State.portAction, hb]
  | false =>
    by_cases h : ∃ a r, s.sched = .agent a :: r
    · obtain ⟨a, r, h⟩ := h
      simp [State.portAction, hb, h]
    · push Not at h
      rw [portAction_idle hb h]
      cases hc : s.stream[s.pc]? with
      | none => simpa [h] using hc
      | some cmd => simpa using fun hle => absurd (List.getElem?_eq_some_iff.mp hc).1 (Nat.not_lt.mpr hle)

/-- Settles O13: the step of an idle block when an other agent's turn comes. -/
theorem agentActsWhileTheBlockIsIdle : Obligations.AgentActsWhileTheBlockIsIdle :=
  fun _ _ _ hb h => step_agent hb h

/-- Settles O12: every other step is a run of accesses, which are refused under another name. -/
theorem runEndsOnlyWhenTheStreamIsExhausted : Obligations.RunEndsOnlyWhenTheStreamIsExhausted := by
  intro s
  rw [← portAction_eq_ended]
  refine ⟨fun h => ?_, step_ended⟩
  have hresume : ∀ u : State, resume u ≠ .refused .runEnded := fun u hu => by
    obtain ⟨a, -, he⟩ := resume_refused hu
    cases he
  cases hb : s.busy with
  | true => exact absurd (step_busy hb ▸ h) (hresume s)
  | false =>
    by_cases ha : ∃ a r, s.sched = .agent a :: r
    · obtain ⟨a, r, ha⟩ := ha
      rw [step_agent hb ha] at h
      rcases busAccess_total a { s with sched := r } with ⟨t, ht⟩ | ht <;> simp [ht] at h
    · push Not at ha
      cases hc : s.stream[s.pc]? with
      | none => simp [portAction_idle hb ha, hc]
      | some cmd => exact absurd (step_present hb ha hc ▸ h) (hresume _)

/-- Settles O28: the checks of a command look at the configuration only, which no access changes. -/
theorem earlierAccessesComeFirst : Obligations.EarlierAccessesComeFirst := by
  intro i s a r h
  rw [exec_eq_transact, transact_agent _ h]
  refine andThen_congr fun t ht => ?_
  rw [exec_eq_transact, (busAccess_rest ht).1]

/-! ### One micro-step -/

theorem microStep_agent {s : State} {a : BusAccess} {r : List Turn} (h : s.sched = .agent a :: r) :
    microStep s = busAccess a { s with sched := r } := by
  simp [microStep, h, agentAlone]

theorem microStep_block {s : State} (h : ∀ a r, s.sched ≠ .agent a :: r) :
    microStep s = blockAction s.takeTurn := by
  unfold microStep
  cases hs : s.sched with
  | nil => rfl
  | cons u r =>
    cases u with
    | block => rfl
    | agent a => exact absurd hs (h a r)

theorem blockAction_sample {s : State} {cmd : Word} (hb : s.busy = false) (hc : s.stream[s.pc]? = some cmd) :
    blockAction s = .next (s.sample cmd) := by
  simp [blockAction, hb, hc]

theorem blockAction_raise {s : State} {c : Cause} (hb : s.busy = true) (hf : s.inFlight = .raise c) :
    blockAction s = .next (s.raise c) := by
  simp [blockAction, hb, hf]

theorem blockAction_finish {s : State} (hb : s.busy = true) (hf : s.inFlight = .run []) :
    blockAction s = .next s.finish := by
  simp [blockAction, hb, hf]

theorem blockAction_access {s : State} {op : MicroOp} {ops : List MicroOp} (hb : s.busy = true)
    (hf : s.inFlight = .run (op :: ops)) : blockAction s = blockAccess op s := by
  simp [blockAction, hb, hf]

/-- R81: everything one action of the block can do. -/
theorem blockAction_next {s t : State} (h : blockAction s = .next t) :
    (s.busy = false ∧ ∃ cmd, s.stream[s.pc]? = some cmd ∧ t = s.sample cmd) ∨
    (s.busy = true ∧ ∃ c, s.inFlight = .raise c ∧ t = s.raise c) ∨
    (s.busy = true ∧ s.inFlight = .run [] ∧ t = s.finish) ∨
    (s.busy = true ∧ ∃ op ops, s.inFlight = .run (op :: ops) ∧ blockAccess op s = .next t) := by
  cases hb : s.busy with
  | false =>
    cases hc : s.stream[s.pc]? with
    | none => simp [blockAction, hb, hc] at h
    | some cmd =>
      rw [blockAction_sample hb hc] at h
      exact .inl ⟨rfl, cmd, rfl, (Host.Outcome.next.inj h).symm⟩
  | true =>
    refine .inr ?_
    cases hf : s.inFlight with
    | raise c =>
      rw [blockAction_raise hb hf] at h
      exact .inl ⟨rfl, c, rfl, (Host.Outcome.next.inj h).symm⟩
    | run ops =>
      refine .inr ?_
      cases ops with
      | nil =>
        rw [blockAction_finish hb hf] at h
        exact .inl ⟨rfl, rfl, (Host.Outcome.next.inj h).symm⟩
      | cons op ops => exact .inr ⟨rfl, op, ops, rfl, blockAction_access hb hf ▸ h⟩

/-- R12: a micro-step is the access of the agent whose turn comes, or an action of the block. -/
theorem microStep_next {s t : State} (h : microStep s = .next t) :
    (∃ a r, s.sched = .agent a :: r ∧ busAccess a { s with sched := r } = .next t) ∨
    blockAction s.takeTurn = .next t := by
  by_cases ha : ∃ a r, s.sched = .agent a :: r
  · obtain ⟨a, r, ha⟩ := ha
    exact .inl ⟨a, r, ha, microStep_agent ha ▸ h⟩
  · push Not at ha
    exact .inr (microStep_block ha ▸ h)

theorem blockAction_keeps_sched {s t : State} (h : blockAction s = .next t) : t.sched = s.sched := by
  rcases blockAction_next h with ⟨-, cmd, -, rfl⟩ | ⟨-, c, -, rfl⟩ | ⟨-, -, rfl⟩ | ⟨-, op, ops, -, h⟩
  · rfl
  · rfl
  · rfl
  · exact blockAccess_keeps_sched h

/-! ### A run of micro-steps -/

theorem microRun_succ (n : Nat) (s : State) : microRun (n + 1) s = andThen (microStep s) (microRun n) := rfl

theorem microRun_one (s : State) : microRun 1 s = microStep s := by
  rw [microRun_succ]
  cases microStep s <;> rfl

/-- The last micro-step of a run, split off. -/
theorem microRun_succ_last (n : Nat) (s : State) : microRun (n + 1) s = andThen (microRun n s) microStep := by
  induction n generalizing s with
  | zero => exact microRun_one s
  | succ n ih =>
    rw [microRun_succ, microRun_succ n, andThen_assoc]
    exact andThen_congr fun t _ => ih t

/-- Once and for all: what every micro-step keeps, a run of them keeps. -/
theorem microRun_keeps {P : State → Prop} (hstep : ∀ s t, P s → microStep s = .next t → P t) {n : Nat} {s t : State}
    (hs : P s) (h : microRun n s = .next t) : P t := by
  induction n generalizing s with
  | zero => cases h; exact hs
  | succ n ih =>
    obtain ⟨u, hu, hr⟩ := andThen_eq_next.mp h
    exact ih (hstep s u hs hu) hr

/-- Log entry 4: `n` turns of the block are used by its `n` next actions. -/
theorem microRun_block_turns {n : Nat} {s t : State} {q : List Turn} (hs : s.sched = List.replicate n .block ++ q)
    (h : microRun n s = .next t) : t.sched = q := by
  induction n generalizing s with
  | zero => cases h; simpa using hs
  | succ n ih =>
    obtain ⟨u, hu, hr⟩ := andThen_eq_next.mp h
    have hs' : s.sched = .block :: (List.replicate n .block ++ q) := by simpa [List.replicate_succ] using hs
    rw [microStep_block (by simp [hs'])] at hu
    exact ih (by simp [blockAction_keeps_sched hu, hs']) hr

/-- Settles O60: by the turns a run of block actions uses. -/
theorem agentActsAtAnyPoint : Obligations.AgentActsAtAnyPoint := by
  refine ⟨fun s a r h => ⟨microStep_agent h, fun hb => ?_⟩, fun n s a r h => ?_⟩
  · rw [step_busy hb, resume_agent h]
    exact andThen_congr fun t ht => (step_busy ((busAccess_rest ht).2.1.trans hb)).symm
  · rw [microRun_succ_last]
    exact andThen_congr fun t ht => microStep_agent (microRun_block_turns h ht)

/-! ### A step is a run of micro-steps -/

/-- What is left to do up to the answer of the command in flight; nothing once the block is idle. -/
def finishCommand (s : State) : Result := if s.busy then resume s else .next s

theorem finishCommand_busy {s : State} (hb : s.busy = true) : finishCommand s = resume s := by simp [finishCommand, hb]

theorem finishCommand_idle {s : State} (hb : s.busy = false) : finishCommand s = .next s := by simp [finishCommand, hb]

/-- R34: the rest of a command in flight is one micro-step and then the rest after it. -/
theorem resume_eq_microStep {s : State} (hb : s.busy = true) : resume s = andThen (microStep s) finishCommand := by
  by_cases ha : ∃ a r, s.sched = .agent a :: r
  · obtain ⟨a, r, ha⟩ := ha
    rw [resume_agent ha, microStep_agent ha]
    exact andThen_congr fun t ht => (finishCommand_busy ((busAccess_rest ht).2.1.trans hb)).symm
  · push Not at ha
    have hb' : s.takeTurn.busy = true := hb
    rw [microStep_block ha]
    cases hf : s.inFlight with
    | raise c =>
      rw [resume_raise hf, blockAction_raise hb' hf, andThen_next, finishCommand_idle rfl, performRaise, answer,
        agentsBefore_block ha, andThen_next]
    | run ops =>
      rw [resume_run hf]
      cases ops with
      | nil =>
        rw [blockAction_finish hb' hf, andThen_next, finishCommand_idle rfl]
        simp only [perform, runOps, andThen_next, answer, agentsBefore_block ha]
      | cons op ops =>
        rw [blockAction_access hb' hf, perform_cons, agentsBefore_block ha, andThen_next]
        refine andThen_congr fun t ht => ?_
        rw [finishCommand_busy ((blockAccess_rest ht).2.1.trans hb'),
          resume_run (blockAccess_inFlight (s := s.takeTurn) hf ht)]

/-- R194: a bound on the micro-steps up to the answer of the command in flight. -/
def State.actionsLeft (s : State) : Nat := s.sched.length + s.inFlight.length + 1

theorem actionsLeft_le (s : State) : s.actionsLeft ≤ s.sched.length + 8 := by
  have := wordPlan_length_le s.cfg s.curCmd
  simp only [State.actionsLeft, inFlight_length]
  omega

theorem microStep_actionsLeft {s t : State} (hs : s.busy = true) (ht : t.busy = true) (h : microStep s = .next t) :
    t.actionsLeft < s.actionsLeft := by
  unfold State.actionsLeft
  rcases microStep_next h with ⟨a, r, ha, hacc⟩ | hblock
  · obtain ⟨-, -, -, -, -, -, -, -, hsched, -⟩ := busAccess_rest hacc
    simp [busAccess_inFlight hacc, hsched, ha]
  · rcases blockAction_next hblock with ⟨hb, -⟩ | ⟨-, c, -, rfl⟩ | ⟨-, -, rfl⟩ | ⟨-, op, ops, hf, hacc⟩
    · simp [hs] at hb
    · simp at ht
    · simp at ht
    · rw [blockAccess_inFlight hf hacc, blockAccess_keeps_sched hacc, ← State.takeTurn_inFlight s, hf]
      simp only [State.takeTurn_sched, List.length_tail, Plan.length, List.length_cons]
      omega

/-- R194: the rest of a command in flight is a bounded run of micro-steps. -/
theorem resume_is_microRun {n : Nat} {s : State} (hb : s.busy = true) (hn : s.actionsLeft ≤ n) :
    ∃ k, 0 < k ∧ k ≤ n ∧ microRun k s = resume s := by
  induction n generalizing s with
  | zero => simp [State.actionsLeft] at hn
  | succ n ih =>
    rw [resume_eq_microStep hb]
    cases hm : microStep s with
    | fault e => exact ⟨1, by omega, by omega, by rw [microRun_one, hm, andThen_fault]⟩
    | refused e => exact ⟨1, by omega, by omega, by rw [microRun_one, hm, andThen_refused]⟩
    | next t =>
      rw [andThen_next]
      cases ht : t.busy with
      | false => exact ⟨1, by omega, by omega, by rw [microRun_one, hm, finishCommand_idle ht]⟩
      | true =>
        have hlt := microStep_actionsLeft hb ht hm
        obtain ⟨k, -, hk, hrun⟩ := ih ht (by omega)
        exact ⟨k + 1, by omega, by omega, by rw [microRun_succ, hm, andThen_next, hrun, finishCommand_busy ht]⟩

/-- Settles O11: the sampling, if the block is idle, and then the rest of the command in flight. -/
theorem stepIsARunOfMicroSteps : Obligations.StepIsARunOfMicroSteps := by
  intro s hne
  cases hb : s.busy with
  | true =>
    obtain ⟨k, h0, hk, hrun⟩ := resume_is_microRun hb (actionsLeft_le s)
    exact ⟨k, h0, by omega, hrun.trans (step_busy hb).symm⟩
  | false =>
    by_cases ha : ∃ a r, s.sched = .agent a :: r
    · obtain ⟨a, r, ha⟩ := ha
      exact ⟨1, by omega, by omega, by rw [microRun_one, microStep_agent ha, step_agent hb ha]⟩
    · push Not at ha
      cases hc : s.stream[s.pc]? with
      | none => exact absurd (by simp [portAction_idle hb ha, hc]) hne
      | some cmd =>
        have hm : microStep s = .next (s.takeTurn.sample cmd) :=
          (microStep_block ha).trans (blockAction_sample (s := s.takeTurn) hb hc)
        obtain ⟨k, -, hk, hrun⟩ := resume_is_microRun (State.sample_busy _ _) (actionsLeft_le (s.takeTurn.sample cmd))
        have hlen : (s.takeTurn.sample cmd).sched.length ≤ s.sched.length := by simp
        exact ⟨k + 1, by omega, by omega, by rw [microRun_succ, hm, andThen_next, hrun, step_present hb ha hc]⟩

/-! ### The invariant -/

/-- R59: an other agent's access keeps the invariant. -/
theorem busAccess_inv {a : BusAccess} {s t : State} (h : busAccess a s = .next t) (hi : s.Inv) : t.Inv := by
  obtain ⟨hwf, hflight, hfault, hhost⟩ := hi
  obtain ⟨hcfg, hbusy, hcmd, hupc, -, hfr, hstream, hpc, -, hresp⟩ := busAccess_rest h
  refine ⟨busAccess_wf h hwf, ?_, ?_, ?_⟩
  · simpa only [State.FlightOk, hcfg, hbusy, hcmd, hupc] using hflight
  · rwa [hfr]
  · simpa only [State.HostOk, hbusy, hstream, hpc, hresp] using hhost

/-- R81 (2): a word is sampled only where the stream holds one, and none of its micro-steps is made yet. -/
theorem sample_inv {s : State} {cmd : Word} (hc : s.stream[s.pc]? = some cmd) (hi : s.Inv) : (s.sample cmd).Inv := by
  obtain ⟨hwf, -, hfault, hresp, hle, -⟩ := hi
  exact ⟨hwf, fun _ => Nat.zero_le _, hfault, hresp, hle, fun _ => (List.getElem?_eq_some_iff.mp hc).1⟩

/-- R81 (4), R37: an answer is one more response, and the index stays in the stream. -/
theorem respond_inv {s : State} (code : BitVec 4) (hb : s.busy = true) (hi : s.Inv) : (s.respond code).Inv := by
  obtain ⟨hwf, -, hfault, hresp, -, hlt⟩ := hi
  exact ⟨hwf, fun h => absurd h (by simp), hfault, by simp [hresp], hlt hb, fun h => absurd h (by simp)⟩

/-- R151, R153 -/
theorem latch_wf {f : FaultRecord} (c : Cause) (cmd : Word) (h : f.Wf) : (f.latch c cmd).Wf := by
  cases hv : f.valid with
  | true => rwa [FaultRecord.latch, if_pos hv]
  | false => cases c <;> simp [FaultRecord.latch, hv, FaultRecord.Wf, Cause.code]

/-- R152 -/
theorem raise_inv {s : State} (c : Cause) (hb : s.busy = true) (hi : s.Inv) : (s.raise c).Inv := by
  obtain ⟨hwf, hflight, hfault, hhost⟩ := hi
  exact respond_inv (s := { s with fault := s.fault.latch c s.curCmd }) c.resp hb
    ⟨hwf, hflight, latch_wf c s.curCmd hfault, hhost⟩

/-- R34: an access is made only while the command in flight has one left. -/
theorem blockAccess_inv {op o : MicroOp} {ops : List MicroOp} {s t : State} (hf : s.inFlight = .run (o :: ops))
    (h : blockAccess op s = .next t) (hi : s.Inv) : t.Inv := by
  obtain ⟨hwf, -, hfault, hhost⟩ := hi
  obtain ⟨hcfg, hbusy, hcmd, hupc, hfr, hstream, hpc, -, hresp⟩ := blockAccess_rest h
  refine ⟨blockAccess_wf h hwf, fun _ => ?_, ?_, ?_⟩
  · have hlen : ops.length + 1 = (wordPlan s.cfg s.curCmd).length - s.upc := by
      rw [← inFlight_length, hf]
      rfl
    rw [hcfg, hcmd, hupc]
    omega
  · rwa [hfr]
  · simpa only [State.HostOk, hbusy, hstream, hpc, hresp] using hhost

theorem blockAction_inv {s t : State} (h : blockAction s = .next t) (hi : s.Inv) : t.Inv := by
  rcases blockAction_next h with ⟨-, cmd, hc, rfl⟩ | ⟨hb, c, -, rfl⟩ | ⟨hb, -, rfl⟩ | ⟨-, op, ops, hf, hacc⟩
  · exact sample_inv hc hi
  · exact raise_inv c hb hi
  · exact respond_inv respOk hb hi
  · exact blockAccess_inv hf hacc hi

/-- The order of the agents is no part of the invariant, so a turn used keeps it. -/
theorem microStep_inv {s t : State} (hi : s.Inv) (h : microStep s = .next t) : t.Inv := by
  rcases microStep_next h with ⟨a, r, -, hacc⟩ | hblock
  · exact busAccess_inv hacc hi
  · exact blockAction_inv hblock hi

/-- Settles O42: every micro-step keeps the invariant, and a step that does not end the run is a run of micro-steps. -/
theorem stepsKeepTheInvariant : Obligations.StepsKeepTheInvariant := by
  intro s t hi h
  rcases h with h | h
  · have hne : s.portAction ≠ .ended := fun he => by simp [step_ended he] at h
    obtain ⟨n, -, -, hrun⟩ := stepIsARunOfMicroSteps s hne
    exact microRun_keeps (P := State.Inv) (fun _ _ => microStep_inv) hi (hrun.trans h)
  · exact microStep_inv hi h

end Sys2Proof.Machine

/-! PROOFS of the statements of 10_state.md. Every write of `SD_REG` by the block is the second half of a read-modify-write that keeps the bits 31:17. -/

namespace Sys2Proof.Machine

/-! ### The bits 31:17 of a word written back -/

/-- R23: a mask that keeps all of the bits 31:17, and bits put in that are none of them. -/
theorem otherField_writeBack {keep ins : Word} (hk : otherField keep = BitVec.allOnes 15) (hi : otherField ins = 0#15)
    (r : Word) : otherField ((r &&& keep) ||| ins) = otherField r := by
  have h : otherField ((r &&& keep) ||| ins) = (otherField r &&& otherField keep) ||| otherField ins := by
    simp only [otherField, BitVec.extractLsb'_or, BitVec.extractLsb'_and]
  rw [h, hk, hi, BitVec.and_allOnes, BitVec.or_zero]

/-- R112: a value in the target field stays below bit 17. -/
theorem otherField_zext32 (v : Byte) : otherField (zext32 v) = 0#15 := by
  ext j hj
  simpa [otherField, zext32] using fun _ => BitVec.getLsbD_of_ge v (17 + j) (by omega)

/-- R113: so does one in the prescale field. -/
theorem otherField_zext32_shift (v : Byte) : otherField (zext32 v <<< 8) = 0#15 := by
  ext j hj
  simpa [otherField, zext32] using fun _ _ _ => BitVec.getLsbD_of_ge v (17 + j - 8) (by omega)

/-! ### Micro-steps that write a register only right after reading it -/

/-- R23: every micro-step that stores to `a` is a write-back right after a read of `a`, and keeps the bits 31:17. -/
inductive KeepsOtherAt (a : Word) : List MicroOp → Prop where
  | nil : KeepsOtherAt a []
  | pair {keep ins : Word} {ops : List MicroOp} (hk : otherField keep = BitVec.allOnes 15)
      (hi : otherField ins = 0#15) (h : KeepsOtherAt a ops) :
      KeepsOtherAt a (.read a :: .writeBack a keep ins :: ops)
  | skip {op : MicroOp} {ops : List MicroOp} (hop : op.stores ≠ some a) (h : KeepsOtherAt a ops) :
      KeepsOtherAt a (op :: ops)

theorem KeepsOtherAt.append {a : Word} {xs ys : List MicroOp} (hx : KeepsOtherAt a xs) (hy : KeepsOtherAt a ys) :
    KeepsOtherAt a (xs ++ ys) := by
  induction hx with
  | nil => exact hy
  | pair hk hi _ ih => exact .pair hk hi ih
  | skip hop _ ih => exact .skip hop ih

theorem keepsOtherAt_of_not_stores {a : Word} {ops : List MicroOp} (h : ∀ op ∈ ops, op.stores ≠ some a) :
    KeepsOtherAt a ops := by
  induction ops with
  | nil => exact .nil
  | cons op ops ih =>
    exact .skip (h op (List.mem_cons_self ..)) (ih fun o ho => h o (List.mem_cons_of_mem _ ho))

/-- The first access of a list of micro-steps belongs to the first of them. -/
theorem BlockTrace.cons {op : MicroOp} {ops : List MicroOp} {tmp : Word} {l : List Access}
    (h : BlockTrace (op :: ops) tmp l) :
    ∃ x tmp' rest, l = x :: rest ∧ BlockTrace ops tmp' rest ∧ ∀ a d, x = wr a d → op.stores = some a := by
  cases op with
  | read b =>
    obtain ⟨v, rest, rfl, hr⟩ := h
    exact ⟨_, _, rest, rfl, hr, by simp⟩
  | writeBack b k i =>
    obtain ⟨rest, rfl, hr⟩ := h
    exact ⟨_, _, rest, rfl, hr, by simp [MicroOp.stores]⟩
  | write b v =>
    obtain ⟨rest, rfl, hr⟩ := h
    exact ⟨_, _, rest, rfl, hr, by simp +contextual [MicroOp.stores]⟩

/-- R23: the accesses such micro-steps leave: each write to `a` right after a read of `a`, with its bits 31:17. -/
theorem KeepsOtherAt.write_follows_read {a d : Word} {ops : List MicroOp} (ho : KeepsOtherAt a ops) :
    ∀ {tmp : Word} {l : List Access} {k : Nat}, BlockTrace ops tmp l → l[k]? = some (wr a d) →
      ∃ j r, k = j + 1 ∧ l[j]? = some (rd a r) ∧ otherField d = otherField r := by
  induction ho with
  | nil =>
    intro tmp l k ht hk
    obtain rfl : l = [] := ht
    simp at hk
  | @pair keep ins ops hkeep hins _ ih =>
    intro tmp l k ht hk
    obtain ⟨r, _, rfl, rest, rfl, hr⟩ := ht
    match k with
    | 0 => simp at hk
    | 1 =>
      obtain rfl : (r &&& keep) ||| ins = d := by simpa using hk
      exact ⟨0, r, rfl, rfl, otherField_writeBack hkeep hins r⟩
    | k + 2 =>
      obtain ⟨j, r', rfl, hj, hd⟩ := ih hr hk
      exact ⟨j + 2, r', rfl, hj, hd⟩
  | skip hop _ ih =>
    intro tmp l k ht hk
    obtain ⟨x, tmp', rest, rfl, hr, hx⟩ := ht.cons
    cases k with
    | zero => exact absurd (hx a d (by simpa using hk)) hop
    | succ k =>
      obtain ⟨j, r, rfl, hj, hd⟩ := ih hr hk
      exact ⟨j + 1, r, rfl, hj, hd⟩

/-! ### The micro-steps of every command -/

theorem opsEnable_keepsOther (c : Cfg) : KeepsOtherAt c.sdAddr (opsEnable c) := .pair (by decide) (by decide) .nil

theorem opsDisable_keepsOther (c : Cfg) : KeepsOtherAt c.sdAddr (opsDisable c) := .pair (by decide) (by decide) .nil

theorem opsSetTarget_keepsOther (c : Cfg) (v : Byte) : KeepsOtherAt c.sdAddr (opsSetTarget c v) :=
  .pair (by decide) (otherField_zext32 v) .nil

theorem opsSetPrescale_keepsOther (c : Cfg) (v : Byte) : KeepsOtherAt c.sdAddr (opsSetPrescale c v) :=
  .pair (by decide) (otherField_zext32_shift v) .nil

theorem opsConfigure_keepsOther (c : Cfg) (duty p : Byte) : KeepsOtherAt c.sdAddr (opsConfigure c duty p) :=
  (opsSetTarget_keepsOther c duty).append (opsSetPrescale_keepsOther c p)

/-- R9: BIND stores to registers at other addresses. -/
theorem opsBind_keepsOther {c : Cfg} (hw : c.Wf) {p : PinCfg} (hp : p ∈ c.pins) (pin : Byte) :
    KeepsOtherAt c.sdAddr (opsBind c pin p) := by
  obtain ⟨⟨hctrl, -⟩, hfunc, -⟩ := cfgWf_pin_addrs hw hp
  obtain ⟨-, hset, -⟩ := cfgWf_fixed_addrs hw
  exact keepsOtherAt_of_not_stores (by simp [opsBind, MicroOp.stores, hctrl, hfunc, hset])

/-- R9: and so does UNBIND. -/
theorem opsUnbind_keepsOther {c : Cfg} (hw : c.Wf) {p : PinCfg} (hp : p ∈ c.pins) (pin : Byte) :
    KeepsOtherAt c.sdAddr (opsUnbind c pin p) := by
  obtain ⟨⟨hctrl, -⟩, -⟩ := cfgWf_pin_addrs hw hp
  obtain ⟨-, -, -, hclr, -⟩ := cfgWf_fixed_addrs hw
  exact keepsOtherAt_of_not_stores (by simp [opsUnbind, MicroOp.stores, hctrl, hclr])

theorem opsFor_keepsOther {c : Cfg} (hw : c.Wf) {i : Instr} {p : PinCfg} (hp : PinOf c i p) :
    KeepsOtherAt c.sdAddr (opsFor c p i) := by
  have hmem : ∀ pin, pinOperand i = some pin → p ∈ c.pins := fun pin h => List.mem_of_getElem? (hp pin h)
  cases i with
  | enable => exact opsEnable_keepsOther c
  | disable => exact opsDisable_keepsOther c
  | setTarget v => exact opsSetTarget_keepsOther c v
  | setPrescale v => exact opsSetPrescale_keepsOther c v
  | configDuty d m => exact opsConfigure_keepsOther c d _
  | presetA d => exact opsConfigure_keepsOther c d _
  | presetB d => exact opsConfigure_keepsOther c d _
  | bind pin => exact opsBind_keepsOther hw (hmem pin rfl) pin
  | unbind pin => exact opsUnbind_keepsOther hw (hmem pin rfl) pin
  | setup pin => exact (opsEnable_keepsOther c).append (opsBind_keepsOther hw (hmem pin rfl) pin)
  | close pin => exact (opsUnbind_keepsOther hw (hmem pin rfl) pin).append (opsDisable_keepsOther c)

/-- Settles O27: a command that faults makes no access, and one that passes its checks leaves those of its micro-steps. -/
theorem blockPreservesOtherBits : Obligations.BlockPreservesOtherBits := by
  intro i s t k d hwf h hk
  rcases exec_trace h with ⟨c, -, hnone⟩ | ⟨p, hp, -, htrace⟩
  · simp [hnone] at hk
  · exact (opsFor_keepsOther hwf.1 hp).write_follows_read htrace hk

end Sys2Proof.Machine

/-! PROOFS of the statements of 20_memory.md. The register address space, the accesses it defines, and what the order of the agents does to a command's reads and writes. -/

namespace Sys2Proof.Machine

/-! ### Reading and writing a named register -/

/-- R51: every register but the two ports can be read. -/
@[simp] def Loc.readable : Loc → Bool
  | .sdReg => true
  | .pinCtrl _ => true
  | .func _ => true
  | .outEn => true
  | .outEnSet => false
  | .outEnClr => false

theorem memRead_of_locate {s : State} {a : Word} {l : Loc} (h : locate s.cfg a = some l) :
    s.memRead a = s.readLoc l := by simp [State.memRead, h]

theorem memWrite_of_locate {s : State} {a : Word} {l : Loc} (h : locate s.cfg a = some l) (v : Word) :
    s.memWrite a v = some (s.writeLoc l v) := by simp [State.memWrite, h]

theorem memRead_eq_some {s : State} {a v : Word} (h : s.memRead a = some v) :
    ∃ l, locate s.cfg a = some l ∧ s.readLoc l = some v := by
  cases hl : locate s.cfg a with
  | none => simp [State.memRead, hl] at h
  | some l => exact ⟨l, rfl, memRead_of_locate hl ▸ h⟩

theorem memWrite_eq_some {s t : State} {a v : Word} (h : s.memWrite a v = some t) :
    ∃ l, locate s.cfg a = some l ∧ t = s.writeLoc l v := by
  cases hl : locate s.cfg a with
  | none => simp [State.memWrite, hl] at h
  | some l => exact ⟨l, rfl, Option.some.inj (h.symm.trans (memWrite_of_locate hl v))⟩

theorem readable_of_readLoc {s : State} {l : Loc} {v : Word} (h : s.readLoc l = some v) : l.readable = true := by
  cases l with
  | outEnSet => cases h
  | outEnClr => cases h
  | _ => rfl

theorem Loc.ne_port_of_readable {l : Loc} (h : l.readable = true) : l ≠ .outEnSet ∧ l ≠ .outEnClr := by
  constructor <;> rintro rfl <;> cases h

/-- R51: what the address map finds is a register of the map, at its address. -/
inductive AddrOf (c : Cfg) : Loc → Word → Prop where
  | sdReg : AddrOf c .sdReg c.sdAddr
  | outEn : AddrOf c .outEn c.outEnAddr
  | outEnSet : AddrOf c .outEnSet c.outEnSetAddr
  | outEnClr : AddrOf c .outEnClr c.outEnClrAddr
  | pinCtrl {n : Nat} {p : PinCfg} (h : c.pins[n]? = some p) : AddrOf c (.pinCtrl n) p.ctrlAddr
  | func {n : Nat} {p : PinCfg} (h : c.pins[n]? = some p) : AddrOf c (.func n) p.funcAddr

theorem addrOf_of_locate {c : Cfg} {a : Word} {l : Loc} (h : locate c a = some l) : AddrOf c l a := by
  unfold locate at h
  split at h
  next ha => cases h; exact ha ▸ .sdReg
  split at h
  next ha => cases h; exact ha ▸ .outEn
  split at h
  next ha => cases h; exact ha ▸ .outEnSet
  split at h
  next ha => cases h; exact ha ▸ .outEnClr
  rcases locatePin_cases h with ⟨n, rfl⟩ | ⟨n, rfl⟩
  · obtain ⟨p, hp, rfl⟩ := locatePin_eq_pinCtrl h
    exact .pinCtrl hp
  · obtain ⟨p, hp, rfl⟩ := locatePin_eq_func h
    exact .func hp

theorem AddrOf.mem_addrs {c : Cfg} {l : Loc} {a : Word} (h : AddrOf c l a) : a ∈ c.addrs := by
  cases h with
  | sdReg => simp [Cfg.addrs]
  | outEn => simp [Cfg.addrs]
  | outEnSet => simp [Cfg.addrs]
  | outEnClr => simp [Cfg.addrs]
  | pinCtrl hp =>
    have := List.mem_map_of_mem (f := PinCfg.ctrlAddr) (List.mem_of_getElem? hp)
    simp only [Cfg.addrs, List.mem_cons, List.mem_append, this, true_or, or_true]
  | func hp =>
    have := List.mem_map_of_mem (f := PinCfg.funcAddr) (List.mem_of_getElem? hp)
    simp only [Cfg.addrs, List.mem_cons, List.mem_append, this, or_true]

/-- R9: every address of the map is a multiple of 4. -/
theorem aligned_of_locate {c : Cfg} (hw : c.Wf) {a : Word} {l : Loc} (h : locate c a = some l) : a.toNat % 4 = 0 := by
  obtain ⟨-, halign, -⟩ := hw
  simpa using List.all_eq_true.mp halign a (addrOf_of_locate h).mem_addrs

/-- R27, R28: a readable register that an address names exists. -/
theorem readLoc_of_locate {s : State} (hw : s.Wf) {a : Word} {l : Loc} (h : locate s.cfg a = some l)
    (hr : l.readable = true) : ∃ v, s.readLoc l = some v := by
  obtain ⟨-, hctrl, hfunc⟩ := hw
  cases addrOf_of_locate h with
  | sdReg => exact ⟨_, rfl⟩
  | outEn => exact ⟨_, rfl⟩
  | outEnSet => cases hr
  | outEnClr => cases hr
  | pinCtrl hp => exact ⟨_, List.getElem?_eq_getElem (hctrl ▸ (List.getElem?_eq_some_iff.mp hp).1)⟩
  | func hp => exact ⟨_, List.getElem?_eq_getElem (hfunc ▸ (List.getElem?_eq_some_iff.mp hp).1)⟩

/-- R57: a register that can be read holds what was written to it. -/
theorem readLoc_writeLoc_self {s : State} {l : Loc} {w : Word} (h : s.readLoc l = some w) (v : Word) :
    (s.writeLoc l v).readLoc l = some v := by
  cases l with
  | sdReg => rfl
  | outEn => rfl
  | outEnSet => cases h
  | outEnClr => cases h
  | pinCtrl n => exact List.getElem?_set_self (List.getElem?_eq_some_iff.mp h).1
  | func n => exact List.getElem?_set_self (List.getElem?_eq_some_iff.mp h).1

/-- R58: a write repeated with the same data changes nothing more. -/
theorem writeLoc_writeLoc (s : State) (l : Loc) (v : Word) : (s.writeLoc l v).writeLoc l v = s.writeLoc l v := by
  cases l with
  | sdReg => rfl
  | outEn => rfl
  | pinCtrl n => simp [State.writeLoc]
  | func n => simp [State.writeLoc]
  | outEnSet => simp [State.writeLoc, BitVec.or_assoc]
  | outEnClr => simp [State.writeLoc, BitVec.and_assoc]

/-- Settles O46: the address map does not move, and no register has two addresses. -/
theorem readReturnsTheLastWrite : Obligations.ReadReturnsTheLastWrite := by
  refine ⟨fun s addr v w _ h => ?_, fun s t addr v h => ?_⟩
  · obtain ⟨l, hl, hread⟩ := memRead_eq_some h
    have hl' : locate (s.writeLoc l v).cfg addr = some l := by rwa [State.writeLoc_cfg]
    have hplain := Loc.ne_port_of_readable (readable_of_readLoc hread)
    exact ⟨_, memWrite_of_locate hl v, (memRead_of_locate hl').trans (readLoc_writeLoc_self hread v),
      fun b hb => State.memRead_writeLoc hl hb.symm fun _ => hplain⟩
  · obtain ⟨l, hl, rfl⟩ := memWrite_eq_some h
    rw [memWrite_of_locate (by rwa [State.writeLoc_cfg]), writeLoc_writeLoc]

/-- R15, R21: the bit that `ENABLE_MASK` names is `enable`, and it is no bit of the other two fields. -/
theorem fields_xor_enableMask (w : Word) :
    enableField (w ^^^ 0x00010000#32) = !enableField w ∧ targetField (w ^^^ 0x00010000#32) = targetField w ∧
    prescaleField (w ^^^ 0x00010000#32) = prescaleField w := by
  refine ⟨by simp [enableField], ?_, ?_⟩
  · have h : targetField 0x00010000#32 = 0#8 := by decide
    simp only [targetField] at h
    simp [targetField, BitVec.extractLsb'_xor, h]
  · have h : prescaleField 0x00010000#32 = 0#8 := by decide
    simp only [prescaleField] at h
    simp [prescaleField, BitVec.extractLsb'_xor, h]

/-- Settles O47: the address map finds the register each address of the configuration names. -/
theorem outputEnablePorts : Obligations.OutputEnablePorts := by
  intro s v ⟨hc, hctrl, hfunc⟩
  have hsd := memWrite_of_locate (locate_sdAddr s.cfg) v
  refine ⟨hsd, fun n p hp => ?_, memWrite_of_locate (cfgWf_locate_outEn hc) v,
    memWrite_of_locate (cfgWf_locate_outEnSet hc) v, memWrite_of_locate (cfgWf_locate_outEnClr hc) v,
    fun k => BitVec.getLsbD_or, fun k => ?_, ?_⟩
  · have hn : n < s.cfg.npins := (List.getElem?_eq_some_iff.mp hp).1
    exact ⟨memWrite_of_locate (cfgWf_locate_ctrl hc hp) v, memWrite_of_locate (cfgWf_locate_func hc hp) v,
      List.getElem?_set_self (hctrl ▸ hn), List.getElem?_set_self (hfunc ▸ hn)⟩
  · by_cases hk : k < 32
    · simp [hk]
    · simp [BitVec.getLsbD_of_ge s.outEn k (by omega)]
  · rintro rfl t ht
    obtain rfl := Option.some.inj (hsd.symm.trans ht)
    exact fields_xor_enableMask s.sdReg

/-! ### The accesses that are defined -/

/-- R59: what makes an other agent's access a defined one. -/
theorem lawful_iff {c : Cfg} {a : BusAccess} : a.lawful c = true ↔
    a.wholeWord = true ∧ ∃ l, locate c a.addr = some l ∧ (a.op = .read → l.readable = true) := by
  unfold BusAccess.lawful
  cases hl : locate c a.addr with
  | none => simp
  | some l => cases l <;> cases a.op <;> simp

theorem lawful_of_busAccess {a : BusAccess} {s t : State} (h : busAccess a s = .next t) : a.lawful s.cfg = true := by
  obtain ⟨hwhole, ⟨v, -, hm, -⟩ | ⟨v, l, ho, hl, -⟩⟩ := busAccess_next h
  · obtain ⟨l, hl, hread⟩ := memRead_eq_some hm
    exact lawful_iff.mpr ⟨hwhole, l, hl, fun _ => readable_of_readLoc hread⟩
  · exact lawful_iff.mpr ⟨hwhole, l, hl, by simp [ho]⟩

theorem busAccess_of_not_lawful {a : BusAccess} {s : State} (h : a.lawful s.cfg = false) :
    busAccess a s = .refused (.undefinedAccess a) := by
  rcases busAccess_total a s with ⟨t, ht⟩ | ht
  · simp [lawful_of_busAccess ht] at h
  · exact ht

theorem busAccess_of_lawful {a : BusAccess} {s : State} (hw : s.Wf) (h : a.lawful s.cfg = true) :
    ∃ t, busAccess a s = .next t := by
  obtain ⟨hwhole, l, hl, hr⟩ := lawful_iff.mp h
  cases ho : a.op with
  | read =>
    obtain ⟨v, hv⟩ := readLoc_of_locate hw hl (hr ho)
    exact ⟨_, by simp [busAccess, hwhole, ho, memRead_of_locate hl, hv]; rfl⟩
  | write v => exact ⟨_, by simp [busAccess, hwhole, ho, memWrite_of_locate hl]; rfl⟩

/-- Settles O48: an access takes effect exactly where it is defined. -/
theorem undefinedAccessesAreRefused : Obligations.UndefinedAccessesAreRefused := by
  intro a s hw
  refine ⟨busAccess_of_not_lawful, fun h => ?_, memRead_of_locate (cfgWf_locate_outEnSet hw.1),
    memRead_of_locate (cfgWf_locate_outEnClr hw.1)⟩
  obtain ⟨t, ht⟩ := busAccess_of_lawful hw h
  obtain ⟨-, -, -, -, htmp, -⟩ := busAccess_rest ht
  refine ⟨t, ht, htmp, ?_⟩
  rcases (busAccess_next ht).2 with ⟨v, ho, hm, rfl⟩ | ⟨v, l, ho, hl, rfl⟩
  · exact ⟨fun _ => ⟨v, hm, rfl⟩, fun w hw => by simp [ho] at hw⟩
  · refine ⟨fun hr => by simp [ho] at hr, fun w hw => ?_⟩
    obtain rfl : v = w := by simpa [ho] using hw
    exact ⟨_, memWrite_of_locate hl v, rfl⟩

/-! ### The block's accesses, in the order of the pseudocode -/

/-- R14: the primitive and the address of a micro-step. -/
def MicroOp.access : MicroOp → Dir × Word
  | .read a => (.read, a)
  | .writeBack a _ _ => (.write, a)
  | .write a _ => (.write, a)

theorem BlockTrace.accesses {ops : List MicroOp} {tmp : Word} {l : List Access} (h : BlockTrace ops tmp l) :
    l.map (fun a => (a.dir, a.addr)) = ops.map MicroOp.access := by
  induction ops generalizing tmp l with
  | nil =>
    obtain rfl : l = [] := h
    rfl
  | cons op ops ih =>
    cases op with
    | read a =>
      obtain ⟨v, rest, rfl, hr⟩ := h
      exact congrArg ((Dir.read, a) :: ·) (ih hr)
    | writeBack a k i =>
      obtain ⟨rest, rfl, hr⟩ := h
      exact congrArg ((Dir.write, a) :: ·) (ih hr)
    | write a d =>
      obtain ⟨rest, rfl, hr⟩ := h
      exact congrArg ((Dir.write, a) :: ·) (ih hr)

theorem opsFor_accesses (c : Cfg) (p : PinCfg) (i : Instr) : (opsFor c p i).map MicroOp.access = accessOrder c p i := by
  cases i <;> rfl

/-- A command that names no pin uses no pin's record. -/
theorem accessOrder_eq_of_pinOf {c : Cfg} {i : Instr} {p q : PinCfg} (hp : PinOf c i p) (hq : PinOf c i q) :
    accessOrder c p i = accessOrder c q i := by
  cases h : pinOperand i with
  | some pin =>
    obtain rfl := Option.some.inj ((hp pin h).symm.trans (hq pin h))
    rfl
  | none =>
    cases i with
    | bind | unbind | setup | close => cases h
    | _ => rfl

/-- Settles O26: the trace of a run of micro-steps, read as primitives and addresses. -/
theorem blockAccessesKeepProgramOrder : Obligations.BlockAccessesKeepProgramOrder := by
  intro i s t p hi hp h
  rcases exec_trace h with ⟨c, hraise, -⟩ | ⟨q, hq, -, htrace⟩
  · obtain ⟨ops, hrun⟩ := planOf_run_of_wf hi
    simp [hrun] at hraise
  · rw [htrace.accesses, opsFor_accesses, accessOrder_eq_of_pinOf hq hp]

/-! ### What a step does to the order of the agents -/

theorem blockAction_keeps_cfg {s t : State} (h : blockAction s = .next t) : t.cfg = s.cfg := by
  rcases blockAction_next h with ⟨-, cmd, -, rfl⟩ | ⟨-, c, -, rfl⟩ | ⟨-, -, rfl⟩ | ⟨-, op, ops, -, hacc⟩
  · rfl
  · rfl
  · rfl
  · exact (blockAccess_rest hacc).1

/-- R9, R64: `u` is under the configuration of `s`, with what is left of its order. -/
def State.LaterThan (s u : State) : Prop := u.cfg = s.cfg ∧ u.sched <:+ s.sched

theorem State.LaterThan.refl (s : State) : s.LaterThan s := ⟨rfl, List.suffix_refl _⟩

theorem State.LaterThan.trans {s u v : State} (h : s.LaterThan u) (h' : u.LaterThan v) : s.LaterThan v :=
  ⟨h'.1.trans h.1, h'.2.trans h.2⟩

theorem microStep_laterThan {s t : State} (h : microStep s = .next t) : s.LaterThan t := by
  rcases microStep_next h with ⟨a, r, ha, hacc⟩ | hblock
  · obtain ⟨hcfg, -, -, -, -, -, -, -, hsched, -⟩ := busAccess_rest hacc
    exact ⟨hcfg, by rw [hsched, ha]; exact List.suffix_cons _ _⟩
  · refine ⟨blockAction_keeps_cfg (s := s.takeTurn) hblock, ?_⟩
    rw [blockAction_keeps_sched hblock]
    exact List.tail_suffix _

/-- A step that does not end the run is a run of micro-steps, so it does what each of them does. -/
theorem step_keeps {P : State → Prop} (hstep : ∀ s t, P s → microStep s = .next t → P t) {s t : State} (hs : P s)
    (h : step s = .next t) : P t := by
  have hne : s.portAction ≠ .ended := fun he => by simp [step_ended he] at h
  obtain ⟨n, -, -, hrun⟩ := stepIsARunOfMicroSteps s hne
  exact microRun_keeps hstep hs (hrun.trans h)

/-- Settles O45: each micro-step uses at most the first turn of the order, and none changes the configuration. -/
theorem scheduleOnlyShrinks : Obligations.ScheduleOnlyShrinks := by
  intro s t h
  obtain ⟨hcfg, hsched⟩ : s.LaterThan t :=
    step_keeps (fun _ _ hu hm => hu.trans (microStep_laterThan hm)) (State.LaterThan.refl s) h
  exact ⟨hsched, fun hlaw a ha => hcfg ▸ hlaw a (hsched.subset ha)⟩

/-! ### Where a step can stop -/

/-- R51: a micro-step's address names a register, for a read one that can be read. -/
def MicroOp.Reaches (c : Cfg) : MicroOp → Prop
  | .read a => ∃ l, locate c a = some l ∧ l.readable = true
  | .writeBack a _ _ => ∃ l, locate c a = some l
  | .write a _ => ∃ l, locate c a = some l

theorem blockAccess_of_reaches {op : MicroOp} {s : State} (hw : s.Wf) (h : op.Reaches s.cfg) :
    ∃ t, blockAccess op s = .next t := by
  cases op with
  | read a =>
    obtain ⟨l, hl, hr⟩ := h
    obtain ⟨v, hv⟩ := readLoc_of_locate hw hl hr
    exact ⟨_, by simp [blockAccess, memRead_of_locate hl, hv]; rfl⟩
  | writeBack a k i =>
    obtain ⟨l, hl⟩ := h
    exact ⟨_, by simp [blockAccess, blockStore, hl]; rfl⟩
  | write a d =>
    obtain ⟨l, hl⟩ := h
    exact ⟨_, by simp [blockAccess, blockStore, hl]; rfl⟩

theorem opsBind_reaches {c : Cfg} (hw : c.Wf) {pin : Byte} {p : PinCfg} (hp : c.pins[pin.toNat]? = some p) :
    ∀ op ∈ opsBind c pin p, op.Reaches c := by
  simp [opsBind, MicroOp.Reaches, cfgWf_locate_func hw hp, cfgWf_locate_ctrl hw hp, cfgWf_locate_outEnSet hw]

theorem opsUnbind_reaches {c : Cfg} (hw : c.Wf) {pin : Byte} {p : PinCfg} (hp : c.pins[pin.toNat]? = some p) :
    ∀ op ∈ opsUnbind c pin p, op.Reaches c := by
  simp [opsUnbind, MicroOp.Reaches, cfgWf_locate_ctrl hw hp, cfgWf_locate_outEnClr hw]

/-- R110 to R113: the read and the write-back of `SD_REG` that every command of the modulator is. -/
theorem updateSdReg_reaches (c : Cfg) (keep ins : Word) :
    ∀ op ∈ [.read c.sdAddr, .writeBack c.sdAddr keep ins], MicroOp.Reaches c op := by
  simp [MicroOp.Reaches]

theorem opsConfigure_reaches (c : Cfg) (duty p : Byte) : ∀ op ∈ opsConfigure c duty p, op.Reaches c :=
  List.forall_mem_append.mpr ⟨updateSdReg_reaches c _ _, updateSdReg_reaches c _ _⟩

theorem opsFor_reaches {c : Cfg} (hw : c.Wf) {i : Instr} {p : PinCfg} (hp : PinOf c i p) :
    ∀ op ∈ opsFor c p i, op.Reaches c := by
  cases i with
  | enable => exact updateSdReg_reaches c _ _
  | disable => exact updateSdReg_reaches c _ _
  | setTarget v => exact updateSdReg_reaches c _ _
  | setPrescale v => exact updateSdReg_reaches c _ _
  | configDuty d m => exact opsConfigure_reaches c d _
  | presetA d => exact opsConfigure_reaches c d _
  | presetB d => exact opsConfigure_reaches c d _
  | bind pin => exact opsBind_reaches hw (hp pin rfl)
  | unbind pin => exact opsUnbind_reaches hw (hp pin rfl)
  | setup pin => exact List.forall_mem_append.mpr ⟨updateSdReg_reaches c _ _, opsBind_reaches hw (hp pin rfl)⟩
  | close pin => exact List.forall_mem_append.mpr ⟨opsUnbind_reaches hw (hp pin rfl), updateSdReg_reaches c _ _⟩

/-- R34, R51: what a word in flight has still to do reaches registers only. -/
theorem inFlight_reaches {s : State} (hw : s.cfg.Wf) {ops : List MicroOp} (hf : s.inFlight = .run ops) :
    ∀ op ∈ ops, op.Reaches s.cfg := by
  unfold State.inFlight wordPlan at hf
  cases hd : decode s.curCmd with
  | error e => simp [hd, Plan.drop] at hf
  | ok i =>
    cases hp : planOf s.cfg i with
    | raise c => simp [hd, hp, Plan.drop] at hf
    | run all =>
      obtain rfl : all.drop s.upc = ops := by simpa [hd, hp, Plan.drop] using hf
      obtain ⟨p, hpo, rfl⟩ := planOf_run hp
      exact fun op ho => opsFor_reaches hw hpo op (List.mem_of_mem_drop ho)

theorem blockAction_total {s : State} (hw : s.Wf) :
    (∃ t, blockAction s = .next t) ∨ blockAction s = .refused .runEnded := by
  cases hb : s.busy with
  | false =>
    cases hc : s.stream[s.pc]? with
    | none => exact .inr (by simp [blockAction, hb, hc])
    | some cmd => exact .inl ⟨_, blockAction_sample hb hc⟩
  | true =>
    refine .inl ?_
    cases hf : s.inFlight with
    | raise c => exact ⟨_, blockAction_raise hb hf⟩
    | run ops =>
      cases ops with
      | nil => exact ⟨_, blockAction_finish hb hf⟩
      | cons op ops =>
        rw [blockAction_access hb hf]
        exact blockAccess_of_reaches hw (inFlight_reaches hw.1 hf op (List.mem_cons_self ..))

/-- R18, R51, R59: an outcome that is a next state, the end of the run, or the refusal of an undefined access that stands in
the order of `s`. -/
def NextOrRefused (s : State) (r : Result) : Prop :=
  (∃ t, r = .next t) ∨ r = .refused .runEnded ∨
    ∃ a, Turn.agent a ∈ s.sched ∧ a.lawful s.cfg = false ∧ r = .refused (.undefinedAccess a)

theorem NextOrRefused.of_laterThan {s u : State} {r : Result} (hu : s.LaterThan u) (h : NextOrRefused u r) :
    NextOrRefused s r := by
  rcases h with h | h | ⟨a, ha, hlaw, h⟩
  · exact .inl h
  · exact .inr (.inl h)
  · exact .inr (.inr ⟨a, hu.2.subset ha, hu.1 ▸ hlaw, h⟩)

theorem microStep_nextOrRefused {s : State} (hw : s.Wf) : NextOrRefused s (microStep s) := by
  by_cases ha : ∃ a r, s.sched = .agent a :: r
  · obtain ⟨a, r, ha⟩ := ha
    rw [microStep_agent ha]
    cases hlaw : a.lawful s.cfg with
    | true => exact .inl (busAccess_of_lawful (s := { s with sched := r }) hw hlaw)
    | false => exact .inr (.inr ⟨a, by simp [ha], hlaw, busAccess_of_not_lawful (s := { s with sched := r }) hlaw⟩)
  · push Not at ha
    rw [microStep_block ha]
    rcases blockAction_total (s := s.takeTurn) hw with h | h
    · exact .inl h
    · exact .inr (.inl h)

theorem microRun_nextOrRefused (n : Nat) {s : State} (hi : s.Inv) : NextOrRefused s (microRun n s) := by
  induction n generalizing s with
  | zero => exact .inl ⟨s, rfl⟩
  | succ n ih =>
    rw [microRun_succ]
    cases hm : microStep s with
    | next t => exact .of_laterThan (microStep_laterThan hm) (ih (microStep_inv hi hm))
    | fault e => rw [andThen_fault, ← hm]; exact microStep_nextOrRefused hi.1
    | refused e => rw [andThen_refused, ← hm]; exact microStep_nextOrRefused hi.1

/-- Settles O44: the end of the run is a refusal, and every other step is a run of micro-steps. -/
theorem blockNeverLeavesItsRegisters : Obligations.BlockNeverLeavesItsRegisters := by
  intro s hi
  by_cases he : s.portAction = .ended
  · exact .inr (.inl (step_ended he))
  · obtain ⟨n, -, -, hrun⟩ := stepIsARunOfMicroSteps s he
    exact hrun ▸ microRun_nextOrRefused n hi

/-! ### The turns of a command, one at a time -/

theorem agentsBefore_of_block {s : State} {r : List Turn} (h : s.sched = .block :: r) :
    agentsBefore s = .next s.takeTurn := agentsBefore_block (by simp [h])

theorem perform_nil {s : State} {r : List Turn} (h : s.sched = .block :: r) :
    perform [] s = .next s.takeTurn.finish := by
  simp only [perform, runOps, andThen_next, answer, agentsBefore_of_block h]

theorem perform_write {s : State} {a d : Word} {l : Loc} {ops : List MicroOp} {r : List Turn}
    (hl : locate s.cfg a = some l) (h : s.sched = .block :: r) :
    perform (.write a d :: ops) s = perform ops (s.takeTurn.blockWrite l a d) := by
  rw [perform_cons, agentsBefore_of_block h]
  simp [blockAccess, blockStore, hl]

theorem exec_bind {s : State} {pin : Byte} {p : PinCfg} (hp : s.cfg.pins[pin.toNat]? = some p) :
    exec (.bind pin) s = perform (opsBind s.cfg pin p) s.start := by
  rw [exec_eq_transact]
  exact congrArg (transact · s) (planPin_of_some hp _)

theorem exec_unbind {s : State} {pin : Byte} {p : PinCfg} (hp : s.cfg.pins[pin.toNat]? = some p) :
    exec (.unbind pin) s = perform (opsUnbind s.cfg pin p) s.start := by
  rw [exec_eq_transact]
  exact congrArg (transact · s) (planPin_of_some hp _)

/-- An other agent writes a word. -/
abbrev BusAccess.writes (a x : Word) : BusAccess := ⟨.write x, a, .word⟩

theorem busAccess_writes {s : State} (hw : s.cfg.Wf) {a : Word} {l : Loc} (hl : locate s.cfg a = some l) (x : Word) :
    busAccess (.writes a x) s = .next ((s.writeLoc l x).log ⟨.other, .write, a, x⟩) := by
  simp [busAccess, BusAccess.wholeWord, aligned_of_locate hw hl, memWrite_of_locate hl]

/-! ### A read-modify-write, with writes of its register in between -/

/-- The configuration and every register but `l` are the same. -/
def State.SameBut (l : Loc) (s u : State) : Prop := u.cfg = s.cfg ∧ ∀ k, k ≠ l → u.readLoc k = s.readLoc k

theorem State.SameBut.trans {l : Loc} {s u v : State} (h : s.SameBut l u) (h' : u.SameBut l v) : s.SameBut l v :=
  ⟨h'.1.trans h.1, fun k hk => (h'.2 k hk).trans (h.2 k hk)⟩

/-- R57: a write of a register that can be read reaches that register alone. -/
theorem sameBut_writeLoc {l : Loc} (hr : l.readable = true) (s : State) (v : Word) : s.SameBut l (s.writeLoc l v) :=
  ⟨s.writeLoc_cfg l v, fun _ hk => s.readLoc_writeLoc_of_ne v hk.symm fun _ => Loc.ne_port_of_readable hr⟩

@[simp] theorem State.readLoc_sched (s : State) (r : List Turn) (k : Loc) :
    ({ s with sched := r } : State).readLoc k = s.readLoc k := by cases k <;> rfl

@[simp] theorem State.readLoc_takeTurn (s : State) (k : Loc) : s.takeTurn.readLoc k = s.readLoc k := by cases k <;> rfl

@[simp] theorem State.readLoc_blockRead (s : State) (a v : Word) (k : Loc) :
    (s.blockRead a v).readLoc k = s.readLoc k := by cases k <;> rfl

@[simp] theorem State.readLoc_blockWrite (s : State) (l : Loc) (a v : Word) (k : Loc) :
    (s.blockWrite l a v).readLoc k = (s.writeLoc l v).readLoc k := by cases k <;> rfl

/-- R12: other agents write these words to one address. -/
def writeTurns (a : Word) (xs : List Word) : List Turn := xs.map fun x => .agent (.writes a x)

/-- R57, R61: writes of one register by other agents leave the word that the block has read, and every other register. -/
theorem agentsUntilBlock_writeTurns {s : State} (hw : s.cfg.Wf) {a w : Word} {l : Loc}
    (hl : locate s.cfg a = some l) (hr : s.readLoc l = some w) (xs : List Word) (r : List Turn) :
    ∃ u v, agentsUntilBlock (writeTurns a xs ++ .block :: r) s = .next u ∧ s.SameBut l u ∧ u.sched = r ∧
      u.tmp = s.tmp ∧ u.readLoc l = some v := by
  induction xs generalizing s w with
  | nil => exact ⟨{ s with sched := r }, w, rfl, ⟨rfl, by simp⟩, rfl, rfl, by simpa using hr⟩
  | cons x xs ih =>
    have hsame : s.SameBut l ((s.writeLoc l x).log ⟨.other, .write, a, x⟩) :=
      (sameBut_writeLoc (readable_of_readLoc hr) s x).trans ⟨rfl, by simp⟩
    obtain ⟨u, v, hu, hsame', hsched, htmp, hv⟩ := ih (hsame.1 ▸ hw) (hsame.1 ▸ hl)
      ((State.readLoc_log ..).trans (readLoc_writeLoc_self hr x))
    refine ⟨u, v, ?_, hsame.trans hsame', hsched, by simpa using htmp, hv⟩
    rw [← hu]
    exact congrArg (andThen · _) (busAccess_writes hw hl x)

/-- R61: a read-modify-write overwrites what other agents write to its register between the read and the write, and
touches no other register. -/
theorem perform_readModifyWrite {s : State} (hw : s.cfg.Wf) {a w : Word} {l : Loc} (hl : locate s.cfg a = some l)
    (hr : s.readLoc l = some w) {xs : List Word} {r : List Turn}
    (hs : s.sched = .block :: (writeTurns a xs ++ .block :: r)) (keep ins : Word) (ops : List MicroOp) :
    ∃ u, perform (.read a :: .writeBack a keep ins :: ops) s = perform ops u ∧ s.SameBut l u ∧ u.sched = r ∧
      u.readLoc l = some ((w &&& keep) ||| ins) := by
  have hread : blockAccess (.read a) s.takeTurn = .next (s.takeTurn.blockRead a w) := by
    simp [blockAccess, memRead_of_locate (s := s.takeTurn) hl, hr]
  obtain ⟨u, v, hu, hsame, hsched, htmp, hv⟩ :=
    agentsUntilBlock_writeTurns (s := s.takeTurn.blockRead a w) hw hl (by simpa using hr) xs r
  have hagents : agentsBefore (s.takeTurn.blockRead a w) = .next u := by
    rw [agentsBefore, State.blockRead_sched, State.takeTurn_sched, hs]
    exact hu
  have hwrite : blockAccess (.writeBack a keep ins) u = .next (u.blockWrite l a ((w &&& keep) ||| ins)) := by
    rw [State.blockRead_tmp] at htmp
    simp [blockAccess, blockStore, hsame.1, hl, htmp]
  refine ⟨u.blockWrite l a ((w &&& keep) ||| ins), ?_, ?_, by simpa using hsched,
    (State.readLoc_blockWrite ..).trans (readLoc_writeLoc_self hv _)⟩
  · simp only [perform_cons, agentsBefore_of_block hs, andThen_next, hread, hagents, hwrite]
  · have h₁ : s.SameBut l (s.takeTurn.blockRead a w) := ⟨rfl, by simp⟩
    have h₂ := sameBut_writeLoc (readable_of_readLoc hr) u ((w &&& keep) ||| ins)
    exact (h₁.trans hsame).trans ⟨by simp, fun k hk => (State.readLoc_blockWrite ..).trans (h₂.2 k hk)⟩

/-- R100, R106: the two read-modify-writes of BIND, with other agents' writes between the read and the write of each. What
is left is the write of the port and the answer. -/
theorem exec_bind_pinRegisters {s : State} (hw : s.cfg.Wf) {pin : Byte} {p : PinCfg}
    (hp : s.cfg.pins[pin.toNat]? = some p) {f c : Word} (hf : s.func[pin.toNat]? = some f)
    (hc : s.pinCtrl[pin.toNat]? = some c) {xs ys : List Word} {r : List Turn}
    (hs : s.sched = .block :: (writeTurns p.funcAddr xs ++ .block :: .block ::
      (writeTurns p.ctrlAddr ys ++ .block :: r))) :
    ∃ u, exec (.bind pin) s = perform [.write s.cfg.outEnSetAddr (pinBit pin)] u ∧ u.cfg = s.cfg ∧ u.sched = r ∧
      u.func[pin.toNat]? = some ((f &&& ~~~s.cfg.funcMask) ||| p.funcBits) ∧
      u.pinCtrl[pin.toNat]? = some (c ||| s.cfg.srcMask) ∧ u.outEn = s.outEn := by
  obtain ⟨u, hu, hsame, husched, hufunc⟩ := perform_readModifyWrite (s := s.start) hw (cfgWf_locate_func hw hp)
    (l := .func pin.toNat) hf hs (~~~s.cfg.funcMask) p.funcBits
    [.read p.ctrlAddr, .writeBack p.ctrlAddr 0xFFFFFFFF#32 s.cfg.srcMask, .write s.cfg.outEnSetAddr (pinBit pin)]
  have hctrl : u.readLoc (.pinCtrl pin.toNat) = some c := (hsame.2 _ (by simp)).trans hc
  have houtEn : u.readLoc .outEn = some s.outEn := hsame.2 .outEn (by simp)
  obtain ⟨v, hv, hsame', hvsched, hvctrl⟩ := perform_readModifyWrite (hsame.1 ▸ hw)
    (hsame.1 ▸ cfgWf_locate_ctrl hw hp) hctrl husched 0xFFFFFFFF#32 s.cfg.srcMask
    [.write s.cfg.outEnSetAddr (pinBit pin)]
  have hall : c &&& 0xFFFFFFFF#32 = c := BitVec.and_allOnes
  refine ⟨v, (exec_bind hp).trans (hu.trans hv), hsame'.1.trans hsame.1, hvsched,
    (hsame'.2 (.func _) (by simp)).trans hufunc, hall ▸ hvctrl,
    Option.some.inj ((hsame'.2 .outEn (by simp)).trans houtEn)⟩

/-- Settles O30: each of the two writes falls in the window of a read-modify-write, and the port write that follows reaches
neither register. -/
theorem bindOverwritesConcurrentPinWrites : Obligations.BindOverwritesConcurrentPinWrites := by
  intro s pin p f c x y r hw hp hf hc hs
  obtain ⟨u, hu, hcfg, hsched, hufunc, huctrl, -⟩ :=
    exec_bind_pinRegisters hw.1 hp hf hc (xs := [x]) (ys := [y]) (r := .block :: .block :: r) hs
  have hset : locate u.cfg s.cfg.outEnSetAddr = some .outEnSet := by
    rw [hcfg]; exact cfgWf_locate_outEnSet hw.1
  refine ⟨(u.takeTurn.blockWrite .outEnSet s.cfg.outEnSetAddr (pinBit pin)).takeTurn.finish, ?_, hufunc, huctrl⟩
  rw [hu, perform_write hset hsched]
  exact perform_nil (r := r) (by simp [hsched])

/-! ### The output-enable step, with a write of an other agent just before it -/

/-- R57: what a write leaves in `OUT_EN` depends on `OUT_EN` alone. -/
theorem writeLoc_outEn_congr {s u : State} (h : u.outEn = s.outEn) (l : Loc) (x : Word) :
    (u.writeLoc l x).outEn = (s.writeLoc l x).outEn := by
  cases l <;> simp [State.writeLoc, h]

/-- R57, R66: the block's write that follows an other agent's write finds what that write has left, in `OUT_EN` too. -/
theorem perform_write_after_agentWrite {s : State} (hw : s.cfg.Wf) {a b : Word} {l k : Loc}
    (hl : locate s.cfg a = some l) (hk : locate s.cfg b = some k) {x : Word} {q : List Turn}
    (hs : s.sched = .agent (.writes a x) :: .block :: q) (d : Word) (ops : List MicroOp) :
    ∃ u, perform (.write b d :: ops) s = perform ops u ∧ u.cfg = s.cfg ∧ u.sched = q ∧ (s.Wf → u.Wf) ∧
      u.outEn = ((s.writeLoc l x).writeLoc k d).outEn := by
  let v : State := (State.writeLoc { s with sched := .block :: q } l x).log ⟨.other, .write, a, x⟩
  refine ⟨v.takeTurn.blockWrite k b d, ?_, by simp [v], by simp [v], fun h => ?_, ?_⟩
  · rw [perform_agent _ hs, busAccess_writes (s := { s with sched := .block :: q }) hw hl, andThen_next]
    exact perform_write (s := v) (by simpa [v] using hk) (r := q) (by simp [v])
  · exact writeLoc_wf (s := v.takeTurn) (writeLoc_wf (s := { s with sched := .block :: q }) h l x) k d
  · have hv : v.outEn = (s.writeLoc l x).outEn :=
      writeLoc_outEn_congr (s := s) (u := { s with sched := .block :: q }) rfl l x
    exact writeLoc_outEn_congr (u := v.takeTurn) hv k d

/-- R66: BIND's port write sets its own bit in what an other agent's write has just left in `OUT_EN`. -/
theorem bind_outEn_after_agentWrite {s : State} (hw : s.Wf) {pin : Byte} (hpin : PinOk s.cfg pin) {a : Word} {l : Loc}
    (hl : locate s.cfg a = some l) {x : Word} {r : List Turn}
    (hs : s.sched = .block :: .block :: .block :: .block :: .agent (.writes a x) :: .block :: .block :: r) :
    ∃ t, exec (.bind pin) s = .next t ∧ t.outEn = (s.writeLoc l x).outEn ||| pinBit pin := by
  obtain ⟨p, hp⟩ := pin_of_ok hpin
  obtain ⟨f, hf⟩ := readLoc_of_locate hw (cfgWf_locate_func hw.1 hp) rfl
  obtain ⟨c, hc⟩ := readLoc_of_locate hw (cfgWf_locate_ctrl hw.1 hp) rfl
  obtain ⟨u, hu, hcfg, husched, -, -, huoutEn⟩ := exec_bind_pinRegisters hw.1 hp hf hc (xs := []) (ys := []) hs
  obtain ⟨v, hv, -, hvsched, -, hvoutEn⟩ := perform_write_after_agentWrite (s := u) (hcfg.symm ▸ hw.1)
    (hcfg.symm ▸ hl) (by rw [hcfg]; exact cfgWf_locate_outEnSet hw.1) husched (pinBit pin) []
  refine ⟨_, hu.trans (hv.trans (perform_nil hvsched)), hvoutEn.trans ?_⟩
  exact congrArg (· ||| pinBit pin) (writeLoc_outEn_congr huoutEn l x)

/-- R101: after its port write UNBIND reads and writes `PIN_CTRL[pin]` and answers, and `OUT_EN` stays. -/
theorem perform_unbind_pinCtrl {s : State} (hw : s.Wf) {n : Nat} {p : PinCfg} (hp : s.cfg.pins[n]? = some p)
    {r : List Turn} (hs : s.sched = .block :: .block :: .block :: r) (keep ins : Word) :
    ∃ t, perform [.read p.ctrlAddr, .writeBack p.ctrlAddr keep ins] s = .next t ∧ t.outEn = s.outEn := by
  have hctrl := cfgWf_locate_ctrl hw.1 hp
  obtain ⟨c, hc⟩ := readLoc_of_locate hw hctrl rfl
  obtain ⟨u, hu, hsame, hsched, -⟩ := perform_readModifyWrite hw.1 hctrl hc (xs := []) hs keep ins []
  exact ⟨_, hu.trans (perform_nil hsched), Option.some.inj (hsame.2 .outEn (by simp))⟩

/-- R66: UNBIND's port write clears its own bit in what an other agent's write has just left in `OUT_EN`. -/
theorem unbind_outEn_after_agentWrite {s : State} (hw : s.Wf) {pin : Byte} (hpin : PinOk s.cfg pin) {a : Word}
    {l : Loc} (hl : locate s.cfg a = some l) {x : Word} {r : List Turn}
    (hs : s.sched = .agent (.writes a x) :: .block :: .block :: .block :: .block :: r) :
    ∃ t, exec (.unbind pin) s = .next t ∧ t.outEn = (s.writeLoc l x).outEn &&& ~~~pinBit pin := by
  obtain ⟨p, hp⟩ := pin_of_ok hpin
  obtain ⟨u, hu, hcfg, husched, huwf, huoutEn⟩ := perform_write_after_agentWrite (s := s.start) hw.1 hl
    (cfgWf_locate_outEnClr hw.1) hs (pinBit pin)
    [.read p.ctrlAddr, .writeBack p.ctrlAddr (~~~s.cfg.srcMask) 0x00000000#32]
  obtain ⟨t, ht, htoutEn⟩ := perform_unbind_pinCtrl (huwf hw) (hcfg.symm ▸ hp) husched (~~~s.cfg.srcMask) 0x00000000#32
  refine ⟨t, (exec_unbind hp).trans (hu.trans ht), (htoutEn.trans huoutEn).trans ?_⟩
  exact congrArg (· &&& ~~~pinBit pin) (writeLoc_outEn_congr (State.start_outEn s) l x)

/-- Settles O31: a port write is no read-modify-write, so it computes from `OUT_EN` as it stands. -/
theorem outputEnableStepLosesNoUpdate : Obligations.OutputEnableStepLosesNoUpdate := by
  intro s pin x r hw hpin
  have hset := cfgWf_locate_outEnSet hw.1
  have hclr := cfgWf_locate_outEnClr hw.1
  exact ⟨bind_outEn_after_agentWrite hw hpin hset, bind_outEn_after_agentWrite hw hpin hclr,
    unbind_outEn_after_agentWrite hw hpin hset, unbind_outEn_after_agentWrite hw hpin hclr⟩

end Sys2Proof.Machine

/-! PROOFS of the statements of 30_encoding.md: the words and the lines of the commands. A word is its four fields, and
a command is its opcode and its two operand fields. -/

namespace Sys2Proof

/-! ### A word is its four fields (R82) -/

theorem fields_append (w : Word) : opField w ++ zField w ++ bField w ++ aField w = w := by
  have join : ∀ start len₁ len₂ : Nat, w.extractLsb' (start + len₁) len₂ ++ w.extractLsb' start len₁ =
      w.extractLsb' start (len₂ + len₁) := fun _ _ _ => BitVec.extractLsb'_append_extractLsb'_eq_extractLsb' rfl
  calc opField w ++ zField w ++ bField w ++ aField w
      = w.extractLsb' 16 16 ++ bField w ++ aField w := congrArg (· ++ bField w ++ aField w) (join 16 8 8)
    _ = w.extractLsb' 8 24 ++ aField w := congrArg (· ++ aField w) (join 8 8 16)
    _ = w.extractLsb' 0 32 := join 0 8 24
    _ = w := BitVec.extractLsb'_eq_self

theorem append_eq_iff_fields {op z b a : Byte} {w : Word} :
    op ++ z ++ b ++ a = w ↔ zField w = z ∧ opField w = op ∧ aField w = a ∧ bField w = b := by
  constructor
  · rintro rfl
    have high : ∀ {n start : Nat} (x : BitVec n) (y : Byte), 8 ≤ start →
        (x ++ y).extractLsb' start 8 = x.extractLsb' (start - 8) 8 := fun _ _ => BitVec.extractLsb'_append_eq_of_le
    refine ⟨?_, ?_, BitVec.extractLsb'_append_eq_right, ?_⟩
    · exact (high _ a (by decide)).trans ((high _ b (by decide)).trans BitVec.extractLsb'_append_eq_right)
    · exact (high _ a (by decide)).trans ((high _ b (by decide)).trans BitVec.extractLsb'_append_eq_left)
    · exact (high _ a (by decide)).trans BitVec.extractLsb'_append_eq_right
  · rintro ⟨rfl, rfl, rfl, rfl⟩
    exact fields_append w

theorem eq_iff_fields {v w : Word} :
    v = w ↔ zField v = zField w ∧ opField v = opField w ∧ aField v = aField w ∧ bField v = bField w := by
  rw [← append_eq_iff_fields, fields_append]
  exact eq_comm

/-- R85: the packed word has its fields where R82 reads them, and zeros between. -/
theorem encodeFields_eq_iff {op b a : Byte} {w : Word} :
    encodeFields op b a = w ↔ zField w = 0#8 ∧ opField w = op ∧ aField w = a ∧ bField w = b := by
  have hpack := BitVec.setWidth_append_append_append_eq_shiftLeft_setWidth_or (b := op) (b' := 0#8) (b'' := b)
    (b''' := a) (w'''' := 32)
  have happend : encodeFields op b a = op ++ 0#8 ++ b ++ a := by simpa [encodeFields] using hpack.symm
  rw [happend, append_eq_iff_fields]

/-! ### A command is its opcode and its two operand fields (R84) -/

/-- R84: the opcode of a command. -/
def Instr.opcode : Instr → Byte
  | .enable => 0x01#8
  | .disable => 0x02#8
  | .setTarget _ => 0x03#8
  | .setPrescale _ => 0x04#8
  | .configDuty _ _ => 0x05#8
  | .presetA _ => 0x06#8
  | .presetB _ => 0x07#8
  | .bind _ => 0x08#8
  | .unbind _ => 0x09#8
  | .setup _ => 0x0A#8
  | .close _ => 0x0B#8

/-- R82: what a command holds in the field `a`: its first operand, or 0. -/
def Instr.aOperand (i : Instr) : Byte := i.operands.getD 0 0#8

/-- R82: what a command holds in the field `b`: its second operand, or 0. -/
def Instr.bOperand (i : Instr) : Byte := i.operands.getD 1 0#8

theorem encode_eq_encodeFields (i : Instr) : encode i = encodeFields i.opcode i.bOperand i.aOperand := by
  cases i <;> rfl

theorem shapeN_eq_ok {a b : Byte} {i j : Instr} : shapeN a b i = .ok j ↔ (a = 0#8 ∧ b = 0#8) ∧ i = j := by
  by_cases h : a = 0#8 ∧ b = 0#8 <;> simp [shapeN, h]

theorem shapeA_eq_ok {b : Byte} {i j : Instr} : shapeA b i = .ok j ↔ b = 0#8 ∧ i = j := by
  by_cases h : b = 0#8 <;> simp [shapeA, h]

/-- R84, R90: the opcode and the operand fields select a command exactly when they are its own. -/
theorem commandOf_eq_ok {op a b : Byte} {i : Instr} :
    commandOf op a b = .ok i ↔ op = i.opcode ∧ a = i.aOperand ∧ b = i.bOperand := by
  constructor
  · intro h
    have hop : ∀ {n : Nat}, op.toNat = n → op = BitVec.ofNat 8 n := fun hn => by simp [← hn]
    have hN : ∀ {j : Instr}, shapeN a b j = .ok i → op = j.opcode → j.aOperand = 0#8 → j.bOperand = 0#8 →
        op = i.opcode ∧ a = i.aOperand ∧ b = i.bOperand := fun hj hop ha hb => by
      obtain ⟨⟨rfl, rfl⟩, rfl⟩ := shapeN_eq_ok.mp hj
      exact ⟨hop, ha.symm, hb.symm⟩
    have hA : ∀ {j : Instr}, shapeA b j = .ok i → op = j.opcode → j.aOperand = a → j.bOperand = 0#8 →
        op = i.opcode ∧ a = i.aOperand ∧ b = i.bOperand := fun hj hop ha hb => by
      obtain ⟨rfl, rfl⟩ := shapeA_eq_ok.mp hj
      exact ⟨hop, ha.symm, hb.symm⟩
    unfold commandOf at h
    split at h
    case h_1 hn => exact hN h (hop hn) rfl rfl
    case h_2 hn => exact hN h (hop hn) rfl rfl
    case h_5 hn => cases h; exact ⟨hop hn, rfl, rfl⟩
    case h_12 => cases h
    all_goals exact hA h (hop ‹_›) rfl rfl
  · rintro ⟨rfl, rfl, rfl⟩
    cases i <;> rfl

/-- R82, R90: a word decodes to a command exactly when its fields are those of the command. -/
theorem decode_eq_ok {w : Word} {i : Instr} :
    decode w = .ok i ↔ zField w = 0#8 ∧ opField w = i.opcode ∧ aField w = i.aOperand ∧ bField w = i.bOperand := by
  unfold decode
  by_cases hz : zField w = 0#8
  · simp [hz, commandOf_eq_ok]
  · simp [hz]

/-- R85, R90: the words that decode to a command are the one word that encodes it. -/
theorem decode_eq_ok_iff_encode {w : Word} {i : Instr} : decode w = .ok i ↔ encode i = w := by
  rw [decode_eq_ok, encode_eq_encodeFields, encodeFields_eq_iff]

/-! ### The round trip -/

/-- Settles O1: the decoder inverts the encoder at the encoder's own words. -/
theorem decodeInvertsEncode : Obligations.DecodeInvertsEncode := fun _ => decode_eq_ok_iff_encode.mpr rfl

/-- Settles O2: a word has no bit outside its four fields. -/
theorem encodeInvertsDecode : Obligations.EncodeInvertsDecode := fun _ _ => decode_eq_ok_iff_encode.mp

/-! ### The rows of the table (R84) -/

open Laws.RowOfWord in
theorem rowOfWord (i : Instr) : Laws.RowOfWord.Statement i := by
  cases i with
  | enable => exact enable
  | disable => exact disable
  | setTarget v => exact setTarget v
  | setPrescale v => exact setPrescale v
  | configDuty d m => exact configDuty d m
  | presetA d => exact presetA d
  | presetB d => exact presetB d
  | bind pin => exact bind pin
  | unbind pin => exact unbind pin
  | setup pin => exact setup pin
  | close pin => exact close pin

/-- R84: a word selects a row exactly when each of its fields does. -/
theorem selects_iff_fields {code mask w : Word} :
    OpRow.selects ⟨code, mask⟩ w = true ↔
      zField w &&& zField mask = zField code ∧ opField w &&& opField mask = opField code ∧
      aField w &&& aField mask = aField code ∧ bField w &&& bField mask = bField code := by
  rw [OpRow.selects, beq_iff_eq, eq_iff_fields]
  simp only [opField, zField, bField, aField, BitVec.extractLsb'_and]

theorem and_fullMask (x : Byte) : x &&& 0xFF#8 = x := BitVec.and_allOnes

/-- R84: the mask of shape AB looks at the fields `z` and `op`. -/
theorem fields_of_selects_shapeAB {code w : Word} (h : OpRow.selects ⟨code, 0xFFFF0000#32⟩ w = true) :
    zField w = zField code ∧ opField w = opField code := by
  obtain ⟨hz, hop, -, -⟩ := selects_iff_fields.mp h
  exact ⟨(and_fullMask _).symm.trans hz, (and_fullMask _).symm.trans hop⟩

/-- R84: the mask of shape A looks at the field `b` too. -/
theorem fields_of_selects_shapeA {code w : Word} (h : OpRow.selects ⟨code, 0xFFFFFF00#32⟩ w = true) :
    zField w = zField code ∧ opField w = opField code ∧ bField w = bField code := by
  obtain ⟨hz, hop, -, hb⟩ := selects_iff_fields.mp h
  exact ⟨(and_fullMask _).symm.trans hz, (and_fullMask _).symm.trans hop, (and_fullMask _).symm.trans hb⟩

/-- R84: the mask of shape N looks at the whole word. -/
theorem eq_of_selects_shapeN {code w : Word} (h : OpRow.selects ⟨code, 0xFFFFFFFF#32⟩ w = true) : w = code :=
  (BitVec.and_allOnes (x := w)).symm.trans (beq_iff_eq.mp h)

/-- The command with other operands. -/
def Instr.withOperands (a b : Byte) : Instr → Instr
  | .enable => .enable
  | .disable => .disable
  | .setTarget _ => .setTarget a
  | .setPrescale _ => .setPrescale a
  | .configDuty _ _ => .configDuty a b
  | .presetA _ => .presetA a
  | .presetB _ => .presetB a
  | .bind _ => .bind a
  | .unbind _ => .unbind a
  | .setup _ => .setup a
  | .close _ => .close a

theorem row_withOperands (i : Instr) (a b : Byte) :
    Laws.RowOfWord.row (i.withOperands a b) = Laws.RowOfWord.row i := by cases i <;> rfl

/-- R84: every row of the table is the row of a command. -/
theorem exists_row_eq {r : OpRow} (h : r ∈ opRows) : ∃ i, Laws.RowOfWord.row i = r := by
  have hrows : opRows = [Instr.enable, .disable, .setTarget 0, .setPrescale 0, .configDuty 0 0, .presetA 0, .presetB 0,
      .bind 0, .unbind 0, .setup 0, .close 0].map Laws.RowOfWord.row := rfl
  rw [hrows] at h
  obtain ⟨i, -, hi⟩ := List.mem_map.mp h
  exact ⟨i, hi⟩

/-- R82, R84, R90: a word that selects a command's row decodes to that command, with the operands the word holds. -/
theorem decode_of_selects_row {i : Instr} {w : Word} (h : (Laws.RowOfWord.row i).selects w = true) :
    decode w = .ok (i.withOperands (aField w) (bField w)) := by
  cases i with
  | enable => exact decode_eq_ok_iff_encode.mpr (eq_of_selects_shapeN h).symm
  | disable => exact decode_eq_ok_iff_encode.mpr (eq_of_selects_shapeN h).symm
  | configDuty d m =>
    obtain ⟨hz, hop⟩ := fields_of_selects_shapeAB h
    exact decode_eq_ok.mpr ⟨hz, hop, rfl, rfl⟩
  | _ =>
    obtain ⟨hz, hop, hb⟩ := fields_of_selects_shapeA h
    exact decode_eq_ok.mpr ⟨hz, hop, rfl, hb⟩

/-- R84, R88: a word selects one of the rows only as the word of a legal command, whose row it is. -/
theorem decode_of_selects {r : OpRow} {w : Word} (hr : r ∈ opRows) (h : r.selects w = true) :
    ∃ i, decode w = .ok i ∧ Laws.RowOfWord.row i = r := by
  obtain ⟨i, rfl⟩ := exists_row_eq hr
  exact ⟨_, decode_of_selects_row h, row_withOperands i _ _⟩

/-- R84: no two rows are selected, as a word decodes to one command at most. -/
theorem selected_rows_le_one (w : Word) : (opRows.filter fun r => r.selects w).length ≤ 1 := by
  cases hd : decode w with
  | error e =>
    have hnone : ∀ r ∈ opRows, ¬ r.selects w = true := fun r hr h => by
      obtain ⟨i, hi, -⟩ := decode_of_selects hr h
      rw [hd] at hi
      cases hi
    simp [List.filter_eq_nil_iff.mpr hnone]
  | ok i =>
    have hrow : ∀ r ∈ opRows, r.selects w = true → (r == Laws.RowOfWord.row i) = true := fun r hr h => by
      obtain ⟨j, hj, rfl⟩ := decode_of_selects hr h
      obtain rfl : j = i := Except.ok.inj (hj.symm.trans hd)
      exact beq_self_eq_true _
    rw [← List.countP_eq_length_filter]
    exact (List.countP_mono_left hrow).trans (List.nodup_iff_count_le_one.mp (by decide) _)

/-- Settles O3: the rows are the commands' rows, and a word decodes to one command at most. -/
theorem legalWordsAreTheTableRows : Obligations.LegalWordsAreTheTableRows := by
  refine fun w => ⟨⟨?_, ?_⟩, selected_rows_le_one w⟩
  · rintro ⟨i, hi⟩
    obtain ⟨hmem, hsel⟩ := rowOfWord i
    exact ⟨_, hmem, decode_eq_ok_iff_encode.mp hi ▸ hsel⟩
  · rintro ⟨r, hr, hsel⟩
    obtain ⟨i, hi, -⟩ := decode_of_selects hr hsel
    exact ⟨i, hi⟩

/-! ### The decode procedure, arm by arm (R90) -/

theorem opcode_ne_reserved (i : Instr) : ¬ (i.opcode = 0x00#8 ∨ 0x0C#8 ≤ i.opcode) := by
  cases i <;> simp [Instr.opcode]

theorem bOperand_eq_zero {i : Instr} (h : i.opcode ≠ 0x05#8) : i.bOperand = 0#8 := by
  cases i with
  | configDuty d m => exact absurd rfl h
  | _ => rfl

theorem aOperand_eq_zero {i : Instr} (h : i.opcode = 0x01#8 ∨ i.opcode = 0x02#8) : i.aOperand = 0#8 := by
  cases i with
  | enable => rfl
  | disable => rfl
  | _ => simp [Instr.opcode] at h

/-- Settles O4: the fields of a word against those of each command. -/
theorem decodeProcedure : Obligations.DecodeProcedure := by
  intro w op z b a hop hz hb ha
  have hd : ∀ i, decode w = .ok i ↔ z = 0#8 ∧ op = i.opcode ∧ a = i.aOperand ∧ b = i.bOperand := fun i => by
    rw [hop, hz, hb, ha]
    exact decode_eq_ok
  have hfields : ∀ i : Instr, z = 0#8 → op = i.opcode →
      (decode w = .ok i ↔ a = i.aOperand ∧ b = i.bOperand) := fun i hz hop => by
    rw [hd i, and_iff_right hz, and_iff_right hop]
  have hA : ∀ i : Instr, a = i.aOperand → i.bOperand = 0#8 → z = 0#8 → op = i.opcode →
      (decode w = .ok i ↔ b = 0#8) := fun i ha hb hz hop => by
    rw [hfields i hz hop, and_iff_right ha, hb]
  refine ⟨fun hz i h => hz ((hd i).mp h).1, hfields .enable, hfields .disable,
    fun hz hop => (hfields (.configDuty a b) hz hop).mpr ⟨rfl, rfl⟩, hA (.setTarget a) rfl rfl,
    hA (.setPrescale a) rfl rfl, hA (.presetA a) rfl rfl, hA (.presetB a) rfl rfl, hA (.bind a) rfl rfl,
    hA (.unbind a) rfl rfl, hA (.setup a) rfl rfl, hA (.close a) rfl rfl, ?_, ?_, ?_⟩
  · intro hres i h
    obtain ⟨-, rfl, -, -⟩ := (hd i).mp h
    exact opcode_ne_reserved i hres
  · intro hop hb i h
    obtain ⟨-, rfl, -, rfl⟩ := (hd i).mp h
    exact hb (bOperand_eq_zero hop)
  · intro hop ha i h
    obtain ⟨-, rfl, rfl, -⟩ := (hd i).mp h
    exact ha (aOperand_eq_zero hop)

/-! ### Counting the legal words -/

/-- R82, R84: a command is one of the two of shape N, one of the eight of shape A with its operand, or the one of
shape AB with its two. -/
def Instr.shapeEquiv : Instr ≃ Bool ⊕ (Fin 8 × Byte) ⊕ (Byte × Byte) where
  toFun
    | .enable => .inl false
    | .disable => .inl true
    | .setTarget v => .inr (.inl (0, v))
    | .setPrescale v => .inr (.inl (1, v))
    | .presetA d => .inr (.inl (2, d))
    | .presetB d => .inr (.inl (3, d))
    | .bind pin => .inr (.inl (4, pin))
    | .unbind pin => .inr (.inl (5, pin))
    | .setup pin => .inr (.inl (6, pin))
    | .close pin => .inr (.inl (7, pin))
    | .configDuty d m => .inr (.inr (d, m))
  invFun
    | .inl false => .enable
    | .inl true => .disable
    | .inr (.inl (0, v)) => .setTarget v
    | .inr (.inl (1, v)) => .setPrescale v
    | .inr (.inl (2, d)) => .presetA d
    | .inr (.inl (3, d)) => .presetB d
    | .inr (.inl (4, pin)) => .bind pin
    | .inr (.inl (5, pin)) => .unbind pin
    | .inr (.inl (6, pin)) => .setup pin
    | .inr (.inl (7, pin)) => .close pin
    | .inr (.inr (d, m)) => .configDuty d m
  left_inv i := by cases i <;> rfl
  right_inv x := by
    rcases x with b | ⟨n, v⟩ | ⟨d, m⟩
    · cases b <;> rfl
    · fin_cases n <;> rfl
    · rfl

theorem card_byte : Nat.card Byte = 256 :=
  calc Nat.card Byte = Nat.card (Fin (2 ^ 8)) := Nat.card_congr BitVec.equivFin.toEquiv
    _ = 2 ^ 8 := Nat.card_fin _
    _ = 256 := by norm_num

/-- R90: `2 + 8*256 + 65536` commands. -/
theorem card_instr : Nat.card Instr = 67586 :=
  calc Nat.card Instr = Nat.card (Bool ⊕ (Fin 8 × Byte) ⊕ (Byte × Byte)) := Nat.card_congr Instr.shapeEquiv
    _ = 2 + (8 * 256 + 256 * 256) := by
      rw [Nat.card_sum, Nat.card_sum, Nat.card_prod, Nat.card_prod, card_byte, Nat.card_fin,
        Nat.card_eq_fintype_card, Fintype.card_bool]
    _ = 67586 := by norm_num

/-- R85: the word of a command, as a legal word. -/
def legalWord (i : Instr) : { w : Word // ∃ i, decode w = .ok i } := ⟨encode i, i, decodeInvertsEncode i⟩

/-- R85, R90: encoding and decoding match the commands with the legal words. -/
theorem legalWord_bijective : Function.Bijective legalWord := by
  constructor
  · intro i j h
    have hij : encode i = encode j := congrArg Subtype.val h
    exact Except.ok.inj ((decodeInvertsEncode i).symm.trans (hij ▸ decodeInvertsEncode j))
  · rintro ⟨w, i, hi⟩
    exact ⟨i, Subtype.ext (encodeInvertsDecode w i hi)⟩

/-- Settles O5: there are as many legal words as commands. -/
theorem legalWordCount : Obligations.LegalWordCount :=
  (Nat.card_eq_of_bijective legalWord legalWord_bijective).symm.trans card_instr

/-! ### Words of the test vectors -/

/-- Settles O6: the decoder evaluated at the fourteen words. -/
theorem decodedVectorWords : Obligations.DecodedVectorWords := by
  unfold Obligations.DecodedVectorWords
  decide

/-! ### The parts of an assembly text (R92) -/

/-- A character of a mnemonic or a numeral: none that separates or starts a comment. -/
def isTokenChar (c : Char) : Bool := !isBlankChar c && c != ',' && c != ';'

/-- A text with no separator and no comment in it, and not empty. -/
abbrev IsToken (l : List Char) : Prop := l ≠ [] ∧ ∀ c ∈ l, isTokenChar c = true

/-- A text that neither begins nor ends with a blank. -/
abbrev IsTrimmed (l : List Char) : Prop :=
  (∀ c ∈ l.head?, isBlankChar c = false) ∧ ∀ c ∈ l.getLast?, isBlankChar c = false

theorem isTokenChar_iff {c : Char} : isTokenChar c = true ↔ isBlankChar c = false ∧ c ≠ ',' ∧ c ≠ ';' := by
  simp [isTokenChar, and_assoc]

theorem IsToken.no_blank {l : List Char} (h : IsToken l) : ∀ c ∈ l, isBlankChar c = false :=
  fun c hc => (isTokenChar_iff.mp (h.2 c hc)).1

theorem IsToken.no_comma {l : List Char} (h : IsToken l) : ',' ∉ l := fun hc =>
  (isTokenChar_iff.mp (h.2 _ hc)).2.1 rfl

theorem IsToken.no_comment {l : List Char} (h : IsToken l) : ';' ∉ l := fun hc =>
  (isTokenChar_iff.mp (h.2 _ hc)).2.2 rfl

theorem IsToken.append_trimmed {k l : List Char} (hk : IsToken k) (hl : ∀ c ∈ l.getLast?, isBlankChar c = false) :
    IsTrimmed (k ++ l) := by
  obtain ⟨c, cs, rfl⟩ := List.exists_cons_of_ne_nil hk.1
  refine ⟨fun d hd => hk.no_blank d (by simp_all), fun d hd => ?_⟩
  rw [List.getLast?_append] at hd
  cases hlast : l.getLast? with
  | none => exact hk.no_blank d (List.mem_of_getLast? (by simpa [hlast] using hd))
  | some e => exact hl d (by simpa [hlast] using hd)

theorem IsToken.trimmed {l : List Char} (h : IsToken l) : IsTrimmed l := by
  simpa using h.append_trimmed (l := []) (by simp)

theorem IsToken.append_getLast? {l : List Char} (h : IsToken l) (k : List Char) :
    ∀ c ∈ (k ++ l).getLast?, isBlankChar c = false := by
  intro c hc
  rw [List.getLast?_append_of_ne_nil _ h.1] at hc
  exact h.no_blank c (List.mem_of_getLast? hc)

theorem trimBlanks_of_trimmed {l : List Char} (h : IsTrimmed l) : trimBlanks l = l := by
  have hdrop : ∀ m : List Char, (∀ c ∈ m.head?, isBlankChar c = false) → m.dropWhile isBlankChar = m := by
    intro m hm
    cases m with
    | nil => rfl
    | cons c cs => simp [hm c rfl]
  rw [trimBlanks, hdrop l h.1, hdrop l.reverse (by simpa using h.2), List.reverse_reverse]

theorem trimBlanks_space_cons (l : List Char) : trimBlanks (' ' :: l) = trimBlanks l := rfl

theorem dropComment_of_no_comment {l : List Char} (h : ';' ∉ l) : dropComment l = l := by
  rw [dropComment, List.takeWhile_eq_self_iff]
  intro c hc
  simpa using fun he : c = ';' => h (he ▸ hc)

theorem splitCommas_comma_cons (l : List Char) : splitCommas (',' :: l) = [] :: splitCommas l := by
  have hne : splitCommas l ≠ [] := by
    cases l with
    | nil => simp [splitCommas]
    | cons c cs =>
      rw [splitCommas]
      split
      · simp
      · split <;> simp
  obtain ⟨p, ps, hp⟩ := List.exists_cons_of_ne_nil hne
  simp [splitCommas, hp]

theorem splitCommas_append_comma {l : List Char} (h : ',' ∉ l) (m : List Char) :
    splitCommas (l ++ ',' :: m) = l :: splitCommas m := by
  induction l with
  | nil => exact splitCommas_comma_cons m
  | cons c cs ih =>
    rw [List.mem_cons, not_or] at h
    simp [splitCommas, ih h.2, Ne.symm h.1]

theorem splitCommas_of_no_comma {l : List Char} (h : ',' ∉ l) : splitCommas l = [l] := by
  induction l with
  | nil => rfl
  | cons c cs ih =>
    rw [List.mem_cons, not_or] at h
    simp [splitCommas, ih h.2, Ne.symm h.1]

/-! ### The decimal numeral of an operand -/

theorem decimalDigit_spec (n : Nat) :
    isTokenChar (decimalDigit n) = true ∧ decimalDigit n ≠ 'x' ∧ hexDigit (decimalDigit n) = some (n % 10) := by
  have hall : ∀ d < 10, isTokenChar (Char.ofNat ('0'.toNat + d)) = true ∧ Char.ofNat ('0'.toNat + d) ≠ 'x' ∧
      hexDigit (Char.ofNat ('0'.toNat + d)) = some d := by decide
  exact hall _ (Nat.mod_lt n (by decide))

/-- R92: only a second character `x` makes a numeral hexadecimal. -/
theorem numeralValue_of_no_x {l : List Char} (hne : l ≠ []) (hx : 'x' ∉ l) : numeralValue l = digitsValue 10 l 0 := by
  unfold numeralValue
  split
  · exact absurd rfl hne
  · simp at hx
  · simp at hx
  · rfl

/-- The value of a decimal numeral with one digit more. -/
def appendDigit (v n : Nat) : Nat := v * 10 + n % 10

theorem digitsValue_map_decimalDigit (ns : List Nat) (acc : Nat) :
    digitsValue 10 (ns.map decimalDigit) acc = some (ns.foldl appendDigit acc) := by
  induction ns generalizing acc with
  | nil => rfl
  | cons n ns ih =>
    obtain ⟨-, -, hd⟩ := decimalDigit_spec n
    simp [digitsValue, hd, Nat.mod_lt, ih, appendDigit]

/-- The numeral of an operand is the digits of its value. -/
theorem decimalNumeral_eq_map (b : Byte) : ∃ ns : List Nat, ns ≠ [] ∧ decimalNumeral b = ns.map decimalDigit ∧
    ns.foldl appendDigit 0 = b.toNat := by
  have hb := b.isLt
  unfold decimalNumeral
  by_cases h1 : b.toNat < 10
  · exact ⟨[b.toNat], by simp, by simp [h1], by simp [appendDigit]; omega⟩
  · by_cases h2 : b.toNat < 100
    · exact ⟨[b.toNat / 10, b.toNat], by simp, by simp [h1, h2], by simp [appendDigit]; omega⟩
    · exact ⟨[b.toNat / 100, b.toNat / 10, b.toNat], by simp, by simp [h1, h2], by simp [appendDigit]; omega⟩

theorem decimalNumeral_isToken (b : Byte) : IsToken (decimalNumeral b) := by
  obtain ⟨ns, hne, hns, -⟩ := decimalNumeral_eq_map b
  refine ⟨by simpa [hns] using hne, fun c hc => ?_⟩
  obtain ⟨n, -, rfl⟩ := List.mem_map.mp (hns ▸ hc)
  exact (decimalDigit_spec n).1

theorem numeralValue_decimalNumeral (b : Byte) : numeralValue (decimalNumeral b) = some b.toNat := by
  obtain ⟨ns, hne, hns, hval⟩ := decimalNumeral_eq_map b
  have hx : 'x' ∉ ns.map decimalDigit := fun h => by
    obtain ⟨n, -, hn⟩ := List.mem_map.mp h
    exact (decimalDigit_spec n).2.1 hn
  rw [hns, numeralValue_of_no_x (by simpa using hne) hx, digitsValue_map_decimalDigit, hval]

/-- R92: an operand written in decimal is read back. -/
theorem asmOperand_decimalNumeral (b : Byte) : asmOperand (decimalNumeral b) = some b := by
  have hb : b.toNat ≤ 255 := Nat.le_of_lt_succ b.isLt
  simp [asmOperand, numeralValue_decimalNumeral, hb]

/-! ### The line of a command -/

/-- What stands after the mnemonic in the line of a command: the operands, each after a blank, with a comma between. -/
def operandText : List Byte → List Char
  | [] => []
  | [a] => ' ' :: decimalNumeral a
  | a :: b :: _ => ' ' :: (decimalNumeral a ++ ',' :: ' ' :: decimalNumeral b)

theorem asmLine_eq_append (i : Instr) : i.asmLine = i.mnemonic ++ operandText i.operands := by
  cases i <;> rfl

theorem mnemonic_isToken (i : Instr) : IsToken i.mnemonic := by
  have hne : i.mnemonic ≠ [] := by cases i <;> exact List.cons_ne_nil _ _
  have hall : i.mnemonic.all isTokenChar = true := by cases i <;> rfl
  exact ⟨hne, List.all_eq_true.mp hall⟩

/-- R84, R92: the mnemonic and the number of the operands tell the commands apart. -/
theorem find?_mnemonic (i : Instr) : (commandsWith i.operands).find? (fun j => j.mnemonic == i.mnemonic) = some i := by
  cases i <;> rfl

/-- R92: the operands in what stands after the mnemonic of a line. -/
def readOperands (text : List Char) : Option (List Byte) :=
  asmOperands (if (trimBlanks text).isEmpty then [] else splitCommas (trimBlanks text))

/-- R92: a line is its mnemonic up to the first blank, and its operands after that. -/
theorem assembleLine_append {name text : List Char} {ops : List Byte} {i : Instr} (hname : IsToken name)
    (hblank : ∀ c ∈ text.head?, isBlankChar c = true) (hlast : ∀ c ∈ text.getLast?, isBlankChar c = false)
    (hcomment : ';' ∉ text) (hops : readOperands text = some ops)
    (hi : (commandsWith ops).find? (fun j => j.mnemonic == name) = some i) :
    assembleLine (name ++ text) = .command i := by
  have htrim : trimBlanks (dropComment (name ++ text)) = name ++ text := by
    rw [dropComment_of_no_comment (by simp [hname.no_comment, hcomment]),
      trimBlanks_of_trimmed (hname.append_trimmed hlast)]
  have htake : (name ++ text).takeWhile (fun c => !isBlankChar c) = name := by
    rw [List.takeWhile_append_of_pos fun c hc => by simp [hname.no_blank c hc]]
    cases text with
    | nil => simp
    | cons c cs => simp [hblank c rfl]
  have hne : (name ++ text).isEmpty = false := by simp [hname.1]
  unfold readOperands at hops
  simp only [assembleLine, htrim, htake, List.drop_left, hne, hops, hi]
  rfl

theorem operandText_head? (ops : List Byte) : ∀ c ∈ (operandText ops).head?, isBlankChar c = true := by
  match ops with
  | [] => simp [operandText]
  | [a] => simp [operandText, isBlankChar]
  | a :: b :: _ => simp [operandText, isBlankChar]

theorem operandText_getLast? (ops : List Byte) : ∀ c ∈ (operandText ops).getLast?, isBlankChar c = false := by
  match ops with
  | [] => simp [operandText]
  | [a] => exact (decimalNumeral_isToken a).append_getLast? [' ']
  | a :: b :: _ =>
    have := (decimalNumeral_isToken b).append_getLast? (' ' :: (decimalNumeral a ++ [',', ' ']))
    simpa [operandText] using this

theorem operandText_no_comment (ops : List Byte) : ';' ∉ operandText ops := by
  match ops with
  | [] => simp [operandText]
  | [a] => simp [operandText, (decimalNumeral_isToken a).no_comment]
  | a :: b :: _ => simp [operandText, (decimalNumeral_isToken a).no_comment, (decimalNumeral_isToken b).no_comment]

theorem trimBlanks_decimalNumeral (b : Byte) : trimBlanks (decimalNumeral b) = decimalNumeral b :=
  trimBlanks_of_trimmed (decimalNumeral_isToken b).trimmed

theorem readOperands_operandText {ops : List Byte} (h : ops.length ≤ 2) :
    readOperands (operandText ops) = some ops := by
  match ops, h with
  | [], _ => rfl
  | [a], _ =>
    have ha := decimalNumeral_isToken a
    have htrim : trimBlanks (operandText [a]) = decimalNumeral a := trimBlanks_decimalNumeral a
    simp [readOperands, htrim, ha.1, splitCommas_of_no_comma ha.no_comma, asmOperands, trimBlanks_decimalNumeral,
      asmOperand_decimalNumeral]
  | [a, b], _ =>
    have ha := decimalNumeral_isToken a
    have hb := decimalNumeral_isToken b
    have htrim : trimBlanks (operandText [a, b]) = decimalNumeral a ++ ',' :: ' ' :: decimalNumeral b :=
      trimBlanks_of_trimmed (ha.append_trimmed (hb.append_getLast? [',', ' ']))
    have hsplit : splitCommas (' ' :: decimalNumeral b) = [' ' :: decimalNumeral b] :=
      splitCommas_of_no_comma (by simp [hb.no_comma])
    simp [readOperands, htrim, splitCommas_append_comma ha.no_comma, hsplit, asmOperands, trimBlanks_space_cons,
      trimBlanks_decimalNumeral, asmOperand_decimalNumeral]

/-- R92: the line of a command is read as that command. -/
theorem assembleLine_asmLine (i : Instr) : assembleLine i.asmLine = .command i := by
  have hops : i.operands.length ≤ 2 := by cases i <;> simp [Instr.operands]
  rw [asmLine_eq_append]
  exact assembleLine_append (mnemonic_isToken i) (operandText_head? _) (operandText_getLast? _)
    (operandText_no_comment _) (readOperands_operandText hops) (find?_mnemonic i)

/-- Settles O7: line by line. -/
theorem assemblyReadsBackEveryCommand : Obligations.AssemblyReadsBackEveryCommand := by
  refine ⟨assembleLine_asmLine, fun is => ?_⟩
  induction is with
  | nil => rfl
  | cons i is ih => simp [assemble, assembleLine_asmLine, ih]

end Sys2Proof

/-! PROOFS of the statements of 30_encoding.md: the commands. What a step makes of the word it samples, what the pin
commands leave, and the commands that are other commands under a new name. -/

namespace Sys2Proof.Machine

/-! ### The step that samples a word (R81) -/

/-- R81, R90: the step of a presented word that decodes to a command is that command. -/
theorem step_of_decode {s : State} {w : Word} {i : Instr} (hb : s.busy = false) (h : ∀ a r, s.sched ≠ .agent a :: r)
    (hw : s.stream[s.pc]? = some w) (hd : decode w = .ok i) : step s = exec i (s.takeTurn.sample w) := by
  rw [step_present hb h hw, resume_sample, exec_eq_transact]
  simp only [wordPlan, hd]
  rfl

/-- R87, R154: the step of a presented word that decodes to nothing is its fault. -/
theorem step_of_illegal {s : State} {w : Word} (hb : s.busy = false) (h : ∀ a r, s.sched ≠ .agent a :: r)
    (hw : s.stream[s.pc]? = some w) (hd : ∀ i, decode w ≠ .ok i) :
    step s = performRaise .illegalCommand (s.takeTurn.sample w) := by
  rw [step_present hb h hw, resume_sample]
  unfold wordPlan
  cases hdec : decode w with
  | error e => rfl
  | ok i => exact absurd hdec (hd i)

/-- Settles O8: sampling uses one turn of the block and starts the command. -/
theorem stepRunsTheDecodedCommand : Obligations.StepRunsTheDecodedCommand :=
  fun _ _ _ hb h hw hd => step_of_decode hb h hw hd

theorem placeWord_getElem? (stream : List Word) (n : Nat) (w : Word) : (placeWord stream n w)[n]? = some w := by
  have hlen : (stream.take n ++ List.replicate (n - stream.length) 0#32).length = n := by simp; omega
  unfold placeWord
  rw [List.getElem?_append_right hlen.le, hlen, Nat.sub_self]
  rfl

theorem withFetchWord_toNat (s : State) (w : Word) : s.withFetchWord 32 w.toNat = s.placeCommand w := by
  simp [State.withFetchWord, Nat.mod_eq_of_lt w.isLt]

/-- Settles O9: the placed word stands at the host's index, before a turn of the block. -/
theorem placedWordRunsNext : Obligations.PlacedWordRunsNext := by
  intro s w i hd
  rw [withFetchWord_toNat]
  exact ⟨step_of_decode rfl (by simp) (placeWord_getElem? s.stream s.pc w) hd, rfl, rfl⟩

theorem QuietFor.head_block {s : State} {n : Nat} (h : s.QuietFor (n + 1)) : ∀ a r, s.sched ≠ .agent a :: r := by
  intro a r hs
  have := h (.agent a) (by simp [hs])
  cases this

/-- Settles O10: the fault is answered with no access in between. -/
theorem illegalWordTakesItsFault : Obligations.IllegalWordTakesItsFault := by
  intro s w hb hq hw hd
  have hq' : (s.takeTurn.sample w).QuietFor 1 := fun t ht => QuietFor.drop hq t (by simpa using ht)
  rw [step_of_illegal hb (QuietFor.head_block hq) hw hd, performRaise, answer, agentsBefore_quiet hq']
  rfl

/-! ### What the pin commands leave (R94) -/

theorem wf_iff_pinOk {c : Cfg} {i : Instr} {pin : Byte} (h : pinOperand i = some pin) : i.Wf c ↔ PinOk c pin := by
  cases i <;> simp_all [pinOperand]

/-- R94, R150: what no command changes, under any interleaving. -/
theorem exec_rest {i : Instr} {s t : State} (h : exec i s = .next t) :
    (i.Wf s.cfg → t.fault = s.fault) ∧ t.curCmd = s.curCmd ∧ SameInputs s t := by
  rcases exec_next h with ⟨c, u, hp, hu, rfl⟩ | ⟨ops, u, v, -, hr, hv, rfl⟩
  · obtain ⟨hcfg, -, hcmd, -, -, -, hstream, -, -⟩ := agentsBefore_rest hu
    refine ⟨fun hwf => ?_, hcmd, hcfg, hstream⟩
    obtain ⟨ops, hops⟩ := planOf_run_of_wf hwf
    simp [hops] at hp
  · obtain ⟨hcfg, -, hcmd, hfault, hstream, -, -⟩ := runOps_rest hr
    obtain ⟨hcfg', -, hcmd', -, -, hfault', hstream', -, -⟩ := agentsBefore_rest hv
    exact ⟨fun _ => hfault'.trans hfault, hcmd'.trans hcmd, hcfg'.trans hcfg, hstream'.trans hstream⟩

/-- Settles O35: a pin command in range passes its checks, and only a failed check writes the fault record. -/
theorem pinCommandsLeaveTheRest : Obligations.PinCommandsLeaveTheRest := by
  intro i s t pin hpin h
  obtain ⟨hfault, hrest⟩ := exec_rest h
  exact ⟨fun hok => hfault ((wf_iff_pinOk hpin).mpr hok), hrest⟩

/-! ### The presets (R126, R127) -/

theorem planPresetA_eq (c : Cfg) (duty : Byte) : planPresetA c duty = planConfigDuty c duty 1#8 := by
  have hle := fold_le duty
  rw [planConfigDuty_ok (by decide) (by simp; omega)]
  simp [planPresetA, presetAPrescale, pre]

theorem planPresetB_eq (c : Cfg) (duty : Byte) : planPresetB c duty = planConfigDuty c duty 2#8 := by
  have hle := fold_le duty
  rw [planConfigDuty_ok (by decide) (by simp; omega)]
  simp [planPresetB, presetBPrescale, pre]

/-- Settles O51: a multiplier 1 or 2 passes the checks at every duty and gives the preset's prescale. -/
theorem presetsAreConfigDuty : Obligations.PresetsAreConfigDuty :=
  fun s duty =>
    ⟨congrArg (transact · s) (planPresetA_eq s.cfg duty), congrArg (transact · s) (planPresetB_eq s.cfg duty)⟩

/-! ### Two commands in the place of one (R140, R141) -/

/-- The state `x` of a command of its own, as a state of the longer command that stood at `m` when the other began: the
registers, the accesses and the order are those of `x`. -/
def State.continuing (m x : State) : State :=
  { x with busy := m.busy, upc := m.upc + x.upc, pc := m.pc, responses := m.responses }

theorem State.continuing_cfg (m x : State) : (m.continuing x).cfg = x.cfg := rfl

theorem continuing_finish_start (m : State) : m.continuing m.finish.start = m := rfl

theorem busAccess_continuing (m : State) (a : BusAccess) (s : State) :
    busAccess a (m.continuing s) = andThen (busAccess a s) (fun t => .next (m.continuing t)) :=
  busAccess_comm (f := m.continuing) (fun _ => rfl) (fun _ l => by cases l <;> rfl)
    (fun _ l _ => by cases l <;> rfl) (fun _ _ => rfl) a s

theorem blockAccess_continuing (m : State) (op : MicroOp) (s : State) :
    blockAccess op (m.continuing s) = andThen (blockAccess op s) (fun t => .next (m.continuing t)) := by
  have hstore : ∀ a v, blockStore a v (m.continuing s) =
      andThen (blockStore a v s) (fun t => .next (m.continuing t)) := by
    intro a v
    rw [blockStore, blockStore, State.continuing_cfg]
    cases locate s.cfg a with
    | none => rfl
    | some l => cases l <;> rfl
  cases op with
  | read a =>
    have hread : (m.continuing s).memRead a = s.memRead a := memRead_congr rfl (fun l => by cases l <;> rfl) a
    simp only [blockAccess, hread]
    cases s.memRead a <;> rfl
  | writeBack a k i => exact hstore a _
  | write a d => exact hstore a d

theorem agentsBefore_continuing (m s : State) :
    agentsBefore (m.continuing s) = andThen (agentsBefore s) (fun t => .next (m.continuing t)) := by
  have hr : ∀ (r : List Turn) (s : State),
      agentsUntilBlock r (m.continuing s) = andThen (agentsUntilBlock r s) (fun t => .next (m.continuing t)) := by
    intro r
    induction r with
    | nil => intro s; rfl
    | cons u r ih =>
      intro s
      cases u with
      | block => rfl
      | agent a =>
        simp only [agentsUntilBlock, busAccess_continuing, andThen_assoc]
        exact andThen_congr fun t _ => ih t
  exact hr s.sched s

theorem runOps_continuing (m : State) (ops : List MicroOp) (s : State) :
    runOps ops (m.continuing s) = andThen (runOps ops s) (fun t => .next (m.continuing t)) := by
  induction ops generalizing s with
  | nil => rfl
  | cons op ops ih =>
    simp only [runOps, agentsBefore_continuing, blockAccess_continuing, andThen_assoc, andThen_next]
    exact andThen_congr fun t _ => andThen_congr fun u _ => ih u

/-- R12, R64: what precedes the block's next action uses a part of the order up to a turn of the block, or else all of
it, and then one turn of the block more at its end changes nothing. -/
theorem agentsUntilBlock_used {r : List Turn} {s v : State} (h : agentsUntilBlock r s = .next v) :
    (∃ p, r = p ++ v.sched ∧ ∀ q, agentsUntilBlock (p ++ q) s = .next { v with sched := q }) ∨
    (v.sched = [] ∧ agentsUntilBlock (r ++ [.block]) s = .next v) := by
  induction r generalizing s with
  | nil => cases h; exact .inr ⟨rfl, rfl⟩
  | cons u r ih =>
    cases u with
    | block => cases h; exact .inl ⟨[.block], rfl, fun _ => rfl⟩
    | agent a =>
      obtain ⟨x, hx, hr⟩ := andThen_eq_next.mp h
      rcases ih hr with ⟨p, hp, hq⟩ | ⟨hnil, hlast⟩
      · exact .inl ⟨.agent a :: p, congrArg _ hp, fun q => by simp [agentsUntilBlock, hx, hq]⟩
      · exact .inr ⟨hnil, by simp [agentsUntilBlock, hx, hlast]⟩

theorem agentsBefore_of_nil {s : State} (h : s.sched = []) : agentsBefore s = .next s := by
  rw [agentsBefore_block (by simp [h]), State.takeTurn, h]
  exact congrArg _ (by rw [List.tail_nil, ← h])

/-- R64: a turn of the block put in where a run of micro-steps ends is used by the answer there, and all else is as
before. -/
theorem runOps_insert_turn {ops : List MicroOp} {s u : State} (h : runOps ops s = .next u) :
    ∃ pre, s.sched = pre ++ u.sched ∧
      andThen (runOps ops { s with sched := pre ++ .block :: u.sched }) agentsBefore = .next u := by
  induction ops generalizing s with
  | nil => cases h; exact ⟨[], rfl, rfl⟩
  | cons op ops ih =>
    obtain ⟨x, hx, hr⟩ := andThen_eq_next.mp h
    obtain ⟨v, hv, hb⟩ := andThen_eq_next.mp hx
    have hagents : ∀ q, agentsBefore { s with sched := q } = agentsUntilBlock q s := fun q =>
      agentsUntilBlock_of_sched q q s
    rcases agentsUntilBlock_used hv with ⟨p, hp, hq⟩ | ⟨hnil, hlast⟩
    · obtain ⟨pre, hpre, hrun⟩ := ih hr
      have hacc : ∀ q, blockAccess op { v with sched := q } = .next { x with sched := q } := fun q => by
        rw [blockAccess_sched, hb, andThen_next]
      refine ⟨p ++ pre, by rw [hp, ← blockAccess_keeps_sched hb, hpre, List.append_assoc], ?_⟩
      rw [List.append_assoc, runOps, hagents, hq, andThen_next, hacc, andThen_next, hrun]
    · have hu : u.sched = [] := List.suffix_nil.mp (hnil ▸ blockAccess_keeps_sched hb ▸ runOps_sched hr)
      refine ⟨s.sched, by rw [hu, List.append_nil], ?_⟩
      rw [hu, runOps, hagents, hlast, andThen_next, hb, andThen_next, hr, andThen_next, agentsBefore_of_nil hu]

/-- The same registers, accesses made and order left. -/
abbrev State.SameOutcome (v t : State) : Prop :=
  v.sdReg = t.sdReg ∧ v.pinCtrl = t.pinCtrl ∧ v.func = t.func ∧ v.outEn = t.outEn ∧ v.trace = t.trace ∧
  v.sched = t.sched

/-- R140, R141: a command of two parts is two commands, under an order with one more turn of the block: for the
answer of the first. -/
theorem perform_append {xs ys : List MicroOp} {s t : State} (h : perform (xs ++ ys) s.start = .next t) :
    ∃ pre post u v, s.sched = pre ++ post ∧
      perform xs (State.start { s with sched := pre ++ .block :: post }) = .next u ∧ u.cfg = s.cfg ∧
      perform ys u.start = .next v ∧ v.SameOutcome t := by
  obtain ⟨w, z, hw, hz, rfl⟩ := perform_next.mp h
  obtain ⟨m, hm, hys⟩ := andThen_eq_next.mp (runOps_append xs ys s.start ▸ hw)
  obtain ⟨pre, hpre, hxs⟩ := runOps_insert_turn hm
  obtain ⟨m', hm', hm''⟩ := andThen_eq_next.mp hxs
  rw [← continuing_finish_start m, runOps_continuing] at hys
  obtain ⟨x, hx, hxw⟩ := andThen_eq_next.mp hys
  cases hxw
  rw [agentsBefore_continuing] at hz
  obtain ⟨y, hy, hyz⟩ := andThen_eq_next.mp hz
  cases hyz
  exact ⟨pre, m.sched, m.finish, y.finish, hpre, perform_next.mpr ⟨m', m, hm', hm'', rfl⟩, (runOps_rest hm).1,
    perform_next.mpr ⟨x, y, hx, hy, rfl⟩, rfl, rfl, rfl, rfl, rfl, rfl⟩

/-- R31, R81: a pin command whose pin is in range is the micro-steps its record gives. -/
theorem exec_of_planPin {s : State} {i : Instr} {pin : Byte} {f : PinCfg → List MicroOp} {p : PinCfg}
    (hi : planOf s.cfg i = planPin s.cfg pin f) (hp : s.cfg.pins[pin.toNat]? = some p) :
    exec i s = perform (f p) s.start := by
  rw [exec_eq_transact, hi, planPin_of_some hp, transact_run]

/-- Settles O56: the micro-steps of a composite are those of its two commands. -/
theorem compositesAreTheirTwoCommands : Obligations.CompositesAreTheirTwoCommands := by
  intro s t pin hok
  obtain ⟨p, hp⟩ := pin_of_ok hok
  constructor
  · intro h
    have hexec := exec_of_planPin (i := .setup pin) rfl hp
    obtain ⟨pre, post, u, v, hs, hfirst, hcfg, hsecond, hsame⟩ := perform_append (hexec.symm.trans h)
    refine ⟨pre, post, u, v, hs, hfirst, ?_, hsame⟩
    rw [exec_bind (hcfg ▸ hp), hcfg]
    exact hsecond
  · intro h
    have hexec := exec_of_planPin (i := .close pin) rfl hp
    obtain ⟨pre, post, u, v, hs, hfirst, hcfg, hsecond, hsame⟩ := perform_append (hexec.symm.trans h)
    have hunbind := exec_unbind (s := { s with sched := pre ++ .block :: post }) hp
    refine ⟨pre, post, u, v, hs, hunbind.trans hfirst, ?_, hsame⟩
    rw [← hcfg] at hsecond
    exact hsecond

end Sys2Proof.Machine

/-! PROOFS of the statements of 40_pin_binder.md. BIND and UNBIND as read-modify-writes of their pin's registers and one
write of an output-enable port, which sets or clears the one bit of the pin. -/

namespace Sys2Proof.Machine

/-! ### One bit of a word -/

theorem getLsbD_or_bit {k : Nat} (hk : k < 32) (w : Word) : (w ||| 1#32 <<< k).getLsbD k = true := by
  simp [hk]

theorem getLsbD_andNot_bit (w : Word) (k : Nat) : (w &&& ~~~(1#32 <<< k)).getLsbD k = false := by
  simp

theorem andNot_bit_of_clear {w : Word} {k : Nat} (h : w.getLsbD k = false) : w &&& ~~~(1#32 <<< k) = w := by
  apply BitVec.eq_of_getLsbD_eq
  intro j hj
  by_cases hjk : j = k
  · simp [hjk, h]
  · have : j < k ∨ ¬ j - k = 0 := by omega
    simp [hj, this]

theorem andNot_andNot (w m : Word) : w &&& ~~~m &&& ~~~m = w &&& ~~~m := by
  rw [BitVec.and_assoc, BitVec.and_self]

theorem or_andNot (w m : Word) : (w ||| m) &&& ~~~m = w &&& ~~~m := by
  rw [BitVec.and_or_distrib_right, BitVec.and_not_self]
  exact BitVec.or_zero

/-! ### The views of a pin -/

/-- R27: the source select of a pin whose register is `w`. -/
theorem srcSelected_eq {s : State} {n : Nat} {w : Word} (h : s.pinCtrl[n]? = some w) :
    s.srcSelected n = w.getLsbD s.cfg.srcBit.val := by
  simp [State.srcSelected, h]

/-- R9, R52: `1 << pin` is a bit of the word at every pin in range. -/
theorem pin_lt_32 {c : Cfg} (hw : c.Wf) {n : Nat} {p : PinCfg} (hp : c.pins[n]? = some p) : n < 32 := by
  obtain ⟨⟨-, hmax⟩, -⟩ := hw
  exact (List.getElem?_eq_some_iff.mp hp).1.trans_le hmax

/-! ### The block's accesses alone -/

/-- R14, R61: a read-modify-write with no other agent in its window. -/
theorem blockOps_readModifyWrite {s : State} {a w : Word} {l : Loc} (hl : locate s.cfg a = some l)
    (hr : s.readLoc l = some w) (keep ins : Word) (ops : List MicroOp) :
    blockOps (.read a :: .writeBack a keep ins :: ops) s =
      blockOps ops ((s.blockRead a w).blockWrite l a ((w &&& keep) ||| ins)) := by
  simp [blockOps, blockAccess, blockStore, memRead_of_locate hl, hr, hl]

theorem blockOps_write {s : State} {a : Word} {l : Loc} (hl : locate s.cfg a = some l) (d : Word)
    (ops : List MicroOp) : blockOps (.write a d :: ops) s = blockOps ops (s.blockWrite l a d) := by
  simp [blockOps, blockAccess, blockStore, hl]

/-- R100: the five accesses of BIND. -/
theorem blockOps_bind {s : State} {g : Cfg} (hg : s.cfg = g) (hw : g.Wf) {pin : Byte} {p : PinCfg}
    (hp : g.pins[pin.toNat]? = some p) {f c : Word} (hf : s.func[pin.toNat]? = some f)
    (hc : s.pinCtrl[pin.toNat]? = some c) :
    blockOps (opsBind g pin p) s = .next { s with
      func := s.func.set pin.toNat ((f &&& ~~~g.funcMask) ||| p.funcBits)
      pinCtrl := s.pinCtrl.set pin.toNat (c ||| g.srcMask)
      outEn := s.outEn ||| pinBit pin
      upc := s.upc + 5
      tmp := c
      trace := s.trace ++ [rd p.funcAddr f, wr p.funcAddr ((f &&& ~~~g.funcMask) ||| p.funcBits),
        rd p.ctrlAddr c, wr p.ctrlAddr (c ||| g.srcMask), wr g.outEnSetAddr (pinBit pin)] } := by
  subst hg
  have hall : c &&& 0xFFFFFFFF#32 = c := BitVec.and_allOnes
  rw [opsBind, blockOps_readModifyWrite (cfgWf_locate_func hw hp) hf,
    blockOps_readModifyWrite (l := .pinCtrl pin.toNat) (w := c), blockOps_write (l := .outEnSet), hall]
  · simp [blockOps, State.blockWrite, State.blockRead, State.log, State.writeLoc]
  · simpa using cfgWf_locate_outEnSet hw
  · simpa using cfgWf_locate_ctrl hw hp
  · exact hc

/-- R101: the three accesses of UNBIND. -/
theorem blockOps_unbind {s : State} {g : Cfg} (hg : s.cfg = g) (hw : g.Wf) {pin : Byte} {p : PinCfg}
    (hp : g.pins[pin.toNat]? = some p) {c : Word} (hc : s.pinCtrl[pin.toNat]? = some c) :
    blockOps (opsUnbind g pin p) s = .next { s with
      pinCtrl := s.pinCtrl.set pin.toNat (c &&& ~~~g.srcMask)
      outEn := s.outEn &&& ~~~pinBit pin
      upc := s.upc + 3
      tmp := c
      trace := s.trace ++ [wr g.outEnClrAddr (pinBit pin), rd p.ctrlAddr c,
        wr p.ctrlAddr (c &&& ~~~g.srcMask)] } := by
  subst hg
  rw [opsUnbind, blockOps_write (cfgWf_locate_outEnClr hw),
    blockOps_readModifyWrite (l := .pinCtrl pin.toNat) (w := c)]
  · simp [blockOps, State.blockWrite, State.blockRead, State.log, State.writeLoc]
  · simpa using cfgWf_locate_ctrl hw hp
  · exact hc

/-- R62, R81: a command with no other agent up to its answer is its accesses and the answer. -/
theorem exec_of_blockOps {i : Instr} {s u : State} {ops : List MicroOp} (hp : planOf s.cfg i = .run ops)
    (hq : s.QuietFor (ops.length + 1))
    (h : blockOps ops { s.start with sched := s.sched.drop (ops.length + 1) } = .next u) :
    exec i s = .next u.finish := by
  rw [exec_quiet hp hq, h, andThen_next]

/-- R9, R27, R28: a whole command keeps the state well formed. -/
theorem exec_wf {i : Instr} {s t : State} (h : exec i s = .next t) (hw : s.Wf) : t.Wf := by
  rcases exec_next h with ⟨c, u, -, hu, rfl⟩ | ⟨ops, u, v, -, hr, hv, rfl⟩
  · exact agentsBefore_wf (t := u) hu hw
  · exact agentsBefore_wf (t := v) hv (runOps_wf hr hw)

/-! ### The results -/

theorem planOf_bind {c : Cfg} {pin : Byte} {p : PinCfg} (hp : c.pins[pin.toNat]? = some p) :
    planOf c (.bind pin) = .run (opsBind c pin p) := planPin_of_some hp _

theorem planOf_unbind {c : Cfg} {pin : Byte} {p : PinCfg} (hp : c.pins[pin.toNat]? = some p) :
    planOf c (.unbind pin) = .run (opsUnbind c pin p) := planPin_of_some hp _

/-- Settles O21: the five accesses, and the two bits they set. -/
theorem bindResult : Obligations.BindResult := by
  intro s pin p f c hw hp hf hc hq f' c'
  refine ⟨_, ?_, rfl, ?_⟩
  · have hrun := blockOps_bind (s := { s.start with sched := s.sched.drop 6 }) rfl hw.1 hp hf hc
    exact (exec_of_blockOps (planOf_bind hp) hq hrun).trans rfl
  · have hlt : pin.toNat < s.pinCtrl.length := (List.getElem?_eq_some_iff.mp hc).1
    have hsrc : (s.pinCtrl.set pin.toNat c')[pin.toNat]? = some c' := List.getElem?_set_self hlt
    rw [State.bound, srcSelected_eq hsrc]
    exact Bool.and_eq_true_iff.mpr ⟨getLsbD_or_bit s.cfg.srcBit.isLt c, getLsbD_or_bit (pin_lt_32 hw.1 hp) s.outEn⟩

/-- Settles O22: the three accesses, and the bit that the first one clears. -/
theorem unbindResult : Obligations.UnbindResult := by
  intro s pin p c hw hp hc hq c'
  refine ⟨_, ?_, rfl, ?_⟩
  · have hrun := blockOps_unbind (s := { s.start with sched := s.sched.drop 4 }) rfl hw.1 hp hc
    exact (exec_of_blockOps (planOf_unbind hp) hq hrun).trans rfl
  · exact Bool.and_eq_false_iff.mpr (.inr (getLsbD_andNot_bit s.outEn pin.toNat))

/-! ### Sequences of commands, with no other agent -/

theorem quietFor_of_nil {s : State} (h : s.sched = []) (n : Nat) : s.QuietFor n := by
  simp [State.QuietFor, h]

/-- R101: what UNBIND leaves, for the command after it. -/
theorem exec_unbind_alone {s : State} (hw : s.Wf) (hs : s.sched = []) {pin : Byte} {p : PinCfg}
    (hp : s.cfg.pins[pin.toNat]? = some p) {c : Word} (hc : s.pinCtrl[pin.toNat]? = some c) :
    ∃ t, exec (.unbind pin) s = .next t ∧ t.Wf ∧ t.sched = [] ∧ t.cfg = s.cfg ∧
      t.pinCtrl = s.pinCtrl.set pin.toNat (c &&& ~~~s.cfg.srcMask) ∧ t.outEn = s.outEn &&& ~~~pinBit pin ∧
      t.func = s.func ∧ t.sdReg = s.sdReg := by
  obtain ⟨t, ht, rfl, -⟩ := unbindResult s pin p c hw hp hc (quietFor_of_nil hs 4)
  exact ⟨_, ht, exec_wf ht hw, by simp [State.afterCommand, hs], rfl, rfl, rfl, rfl, rfl⟩

/-- Settles O53: UNBIND from the state that BIND leaves; its clears undo what BIND has set. -/
theorem bindThenUnbind : Obligations.BindThenUnbind := by
  intro s pin p f c hw hp hf hc hs
  obtain ⟨t, ht, htEq, -⟩ := bindResult s pin p f c hw hp hf hc (quietFor_of_nil hs 6)
  obtain ⟨hlt, -⟩ := List.getElem?_eq_some_iff.mp hc
  have htcfg : t.cfg = s.cfg := by rw [htEq]; rfl
  have htctrl : t.pinCtrl = s.pinCtrl.set pin.toNat (c ||| s.cfg.srcMask) := by rw [htEq]; rfl
  have htout : t.outEn = s.outEn ||| pinBit pin := by rw [htEq]; rfl
  have hc' : t.pinCtrl[pin.toNat]? = some (c ||| s.cfg.srcMask) := htctrl ▸ List.getElem?_set_self hlt
  obtain ⟨u, hu, -, -, -, huctrl, huout, hufunc, husd⟩ :=
    exec_unbind_alone (exec_wf ht hw) (by simp [htEq, State.afterCommand, hs]) (htcfg ▸ hp) hc'
  refine ⟨t, u, ht, hu, ?_, ?_, hufunc.trans (by rw [htEq]), husd.trans (by rw [htEq]; rfl)⟩
  · rw [huctrl, htctrl, htcfg, or_andNot, List.set_set, Cfg.srcMask]
  · rw [huout, htout, or_andNot, pinBit]

/-- Settles O54: a bit already clear is left as it is by a clear. -/
theorem unbindIsIdempotent : Obligations.UnbindIsIdempotent := by
  intro s pin hw hok hs
  obtain ⟨p, hp⟩ := pin_of_ok hok
  obtain ⟨c, hc⟩ := readLoc_of_locate hw (cfgWf_locate_ctrl hw.1 hp) rfl
  obtain ⟨hlt, hget⟩ := List.getElem?_eq_some_iff.mp hc
  obtain ⟨t, ht, htw, hts, htcfg, htctrl, htout, htfunc, htsd⟩ := exec_unbind_alone hw hs hp hc
  have hc' : t.pinCtrl[pin.toNat]? = some (c &&& ~~~s.cfg.srcMask) := htctrl ▸ List.getElem?_set_self hlt
  obtain ⟨u, hu, -, -, -, huctrl, huout, hufunc, husd⟩ := exec_unbind_alone htw hts (htcfg ▸ hp) hc'
  refine ⟨t, u, ht, hu, ?_, ?_, hufunc, husd, fun hsrc hout => ⟨?_, ?_, htfunc, htsd⟩⟩
  · rw [huctrl, htctrl, htcfg, andNot_andNot, List.set_set]
  · rw [huout, htout, andNot_andNot]
  · rw [srcSelected_eq hc] at hsrc
    rw [htctrl, Cfg.srcMask, andNot_bit_of_clear hsrc, ← hget, List.set_getElem_self]
  · exact htout.trans (andNot_bit_of_clear hout)

/-! ### The frame -/

/-- R29, R56: the two ports cannot be read. -/
theorem memRead_port {s : State} (hw : s.cfg.Wf) {a : Word} (ha : a = s.cfg.outEnSetAddr ∨ a = s.cfg.outEnClrAddr) :
    s.memRead a = none := by
  rcases ha with rfl | rfl
  · exact memRead_of_locate (cfgWf_locate_outEnSet hw)
  · exact memRead_of_locate (cfgWf_locate_outEnClr hw)

/-- R57: what is read at an address other than that of `OUT_EN` is changed by the stores to that address alone, and a store
to a port changes nothing read at the port. -/
theorem exec_frame_of_stores {i : Instr} {s t : State} {b : Word} (hw : s.Wf) (hb : b ≠ s.cfg.outEnAddr)
    (hA : s.AgentsLeave b) (h : exec i s = .next t)
    (hB : ∀ p, PinOf s.cfg i p → ∀ op ∈ opsFor s.cfg p i, op.stores = some b →
      b = s.cfg.outEnSetAddr ∨ b = s.cfg.outEnClrAddr) : t.memRead b = s.memRead b := by
  by_cases hport : b = s.cfg.outEnSetAddr ∨ b = s.cfg.outEnClrAddr
  · obtain ⟨-, -, hcfg, -⟩ := exec_rest h
    rw [memRead_port hw.1 hport, memRead_port (hcfg ▸ hw.1) (hcfg ▸ hport)]
  · refine exec_frame h hA fun p hp _ op hop hstores => ?_
    rcases hstores with hstores | ⟨hout, -⟩
    · exact hport (hB p hp op hop hstores)
    · exact hb hout

/-- R100: where BIND stores. -/
theorem opsBind_stores {g : Cfg} {pin : Byte} {p : PinCfg} {op : MicroOp} {b : Word} (hop : op ∈ opsBind g pin p)
    (h : op.stores = some b) : p.funcAddr = b ∨ p.ctrlAddr = b ∨ g.outEnSetAddr = b := by
  simp only [opsBind, List.mem_cons, List.not_mem_nil, or_false] at hop
  rcases hop with rfl | rfl | rfl | rfl | rfl <;> simp_all [MicroOp.stores]

/-- R101: where UNBIND stores. -/
theorem opsUnbind_stores {g : Cfg} {pin : Byte} {p : PinCfg} {op : MicroOp} {b : Word}
    (hop : op ∈ opsUnbind g pin p) (h : op.stores = some b) : g.outEnClrAddr = b ∨ p.ctrlAddr = b := by
  simp only [opsUnbind, List.mem_cons, List.not_mem_nil, or_false] at hop
  rcases hop with rfl | rfl | rfl <;> simp_all [MicroOp.stores]

/-- Settles O33: each store of the two commands is to a register named apart from `addr`, or to a port. -/
theorem pinBinderFrame : Obligations.PinBinderFrame := by
  intro s t pin addr hw hout hA hctrl
  refine ⟨fun h => exec_frame_of_stores hw hout hA h fun p hp op hop hstores => ?_,
    fun hfunc h => exec_frame_of_stores hw hout hA h fun p hp op hop hstores => ?_⟩
  · rcases opsUnbind_stores hop hstores with hclr | hc
    · exact .inr hclr.symm
    · exact absurd hc.symm (hctrl p (hp pin rfl))
  · rcases opsBind_stores hop hstores with hf | hc | hset
    · exact absurd hf.symm (hfunc p (hp pin rfl))
    · exact absurd hc.symm (hctrl p (hp pin rfl))
    · exact .inl hset.symm

end Sys2Proof.Machine

/-! PROOFS of the statements of 41_modulator_controller.md. Each command of the modulator is one read-modify-write of
`SD_REG`, given by the bits it keeps and the bits it puts in. -/

namespace Sys2Proof.Machine

/-! ### The fields of `SD_REG` in a word written back (R21) -/

/-- A field that the write-back keeps. -/
theorem extractLsb'_writeBack_kept {lo n : Nat} {keep ins : Word} (hk : keep.extractLsb' lo n = BitVec.allOnes n)
    (hi : ins.extractLsb' lo n = 0#n) (w : Word) : ((w &&& keep) ||| ins).extractLsb' lo n = w.extractLsb' lo n := by
  rw [BitVec.extractLsb'_or, BitVec.extractLsb'_and, hk, hi, BitVec.and_allOnes, BitVec.or_zero]

/-- A field that the write-back replaces. -/
theorem extractLsb'_writeBack_replaced {lo n : Nat} {keep : Word} (hk : keep.extractLsb' lo n = 0#n) (w ins : Word) :
    ((w &&& keep) ||| ins).extractLsb' lo n = ins.extractLsb' lo n := by
  rw [BitVec.extractLsb'_or, BitVec.extractLsb'_and, hk, BitVec.and_zero, BitVec.zero_or]

theorem enableField_writeBack_kept {keep ins : Word} (hk : enableField keep = true) (hi : enableField ins = false)
    (w : Word) : enableField ((w &&& keep) ||| ins) = enableField w := by
  rw [enableField] at hk hi
  rw [enableField, BitVec.getLsbD_or, BitVec.getLsbD_and, hk, hi, Bool.and_true, Bool.or_false, enableField]

theorem enableField_writeBack_replaced {keep : Word} (hk : enableField keep = false) (w ins : Word) :
    enableField ((w &&& keep) ||| ins) = enableField ins := by
  rw [enableField] at hk
  rw [enableField, BitVec.getLsbD_or, BitVec.getLsbD_and, hk, Bool.and_false, Bool.false_or, enableField]

theorem targetField_zext32 (v : Byte) : targetField (zext32 v) = v := by
  ext j hj
  have hlt : j < 32 := by omega
  simp [targetField, zext32, BitVec.getLsbD_eq_getElem, hj, hlt]

theorem prescaleField_zext32 (v : Byte) : prescaleField (zext32 v) = 0#8 := by
  ext j hj
  simp [prescaleField, zext32]

theorem enableField_zext32 (v : Byte) : enableField (zext32 v) = false := by
  simp [enableField, zext32]

theorem targetField_zext32_shift (v : Byte) : targetField (zext32 v <<< 8) = 0#8 := by
  ext j hj
  simp [targetField, hj]

theorem prescaleField_zext32_shift (v : Byte) : prescaleField (zext32 v <<< 8) = v := by
  ext j hj
  have hlt : 8 + j < 32 := by omega
  simp [prescaleField, zext32, hlt, BitVec.getLsbD_eq_getElem, hj]

theorem enableField_zext32_shift (v : Byte) : enableField (zext32 v <<< 8) = false := by
  simp [enableField, zext32]

/-- R110, R111: the field enable put in, with both parameters 0. -/
theorem fields_of_enable_update {ins : Word} (ht : targetField ins = 0#8) (hp : prescaleField ins = 0#8)
    (ho : otherField ins = 0#15) (w : Word) :
    let x := (w &&& 0xFFFE0000#32) ||| ins
    enableField x = enableField ins ∧ prescaleField x = 0#8 ∧ targetField x = 0#8 ∧ otherField x = otherField w :=
  ⟨enableField_writeBack_replaced (by decide) w ins,
    (extractLsb'_writeBack_replaced (by decide) w ins).trans hp,
    (extractLsb'_writeBack_replaced (by decide) w ins).trans ht,
    otherField_writeBack (by decide) ho w⟩

/-- R112: a value put in the field target. -/
theorem fields_of_target_update (w : Word) (v : Byte) :
    let x := (w &&& 0xFFFFFF00#32) ||| zext32 v
    targetField x = v ∧ prescaleField x = prescaleField w ∧ enableField x = enableField w ∧
      otherField x = otherField w :=
  ⟨(extractLsb'_writeBack_replaced (by decide) w _).trans (targetField_zext32 v),
    extractLsb'_writeBack_kept (by decide) (prescaleField_zext32 v) w,
    enableField_writeBack_kept (by decide) (enableField_zext32 v) w,
    otherField_writeBack (by decide) (otherField_zext32 v) w⟩

/-- R113: a value put in the field prescale. -/
theorem fields_of_prescale_update (w : Word) (v : Byte) :
    let x := (w &&& 0xFFFF00FF#32) ||| (zext32 v <<< 8)
    prescaleField x = v ∧ targetField x = targetField w ∧ enableField x = enableField w ∧
      otherField x = otherField w :=
  ⟨(extractLsb'_writeBack_replaced (by decide) w _).trans (prescaleField_zext32_shift v),
    extractLsb'_writeBack_kept (by decide) (targetField_zext32_shift v) w,
    enableField_writeBack_kept (by decide) (enableField_zext32_shift v) w,
    otherField_writeBack (by decide) (otherField_zext32_shift v) w⟩

/-- R20: `SD_REG` has no bit outside its four fields. -/
theorem eq_of_sdFields {v w : Word} (ht : targetField v = targetField w) (hp : prescaleField v = prescaleField w)
    (he : enableField v = enableField w) (ho : otherField v = otherField w) : v = w := by
  have field : ∀ {lo n k : Nat}, v.extractLsb' lo n = w.extractLsb' lo n → lo ≤ k → k < lo + n →
      v.getLsbD k = w.getLsbD k := by
    intro lo n k h hlo hhi
    have hbit := congrArg (·.getLsbD (k - lo)) h
    have hlt : k - lo < n := by omega
    simpa [hlt, Nat.add_sub_of_le hlo] using hbit
  apply BitVec.eq_of_getLsbD_eq
  intro k hk
  by_cases h8 : k < 8
  · exact field ht (by omega) (by omega)
  by_cases h16 : k < 16
  · exact field hp (by omega) (by omega)
  by_cases h17 : k = 16
  · exact h17 ▸ he
  · exact field ho (by omega) (by omega)

/-- R114: each of the two updates keeps the field that the other one fills, so either order leaves the same fields. -/
theorem target_prescale_updates_comm (w : Word) (a b : Byte) :
    (((w &&& 0xFFFFFF00#32) ||| zext32 a) &&& 0xFFFF00FF#32) ||| (zext32 b <<< 8) =
      (((w &&& 0xFFFF00FF#32) ||| (zext32 b <<< 8)) &&& 0xFFFFFF00#32) ||| zext32 a := by
  obtain ⟨hta, hpa, hea, hoa⟩ := fields_of_target_update w a
  obtain ⟨hpb, -, heb, hob⟩ := fields_of_prescale_update w b
  obtain ⟨hpab, htab, heab, hoab⟩ := fields_of_prescale_update ((w &&& 0xFFFFFF00#32) ||| zext32 a) b
  obtain ⟨htba, hpba, heba, hoba⟩ := fields_of_target_update ((w &&& 0xFFFF00FF#32) ||| (zext32 b <<< 8)) a
  apply eq_of_sdFields
  · rw [htab, hta, htba]
  · rw [hpab, hpba, hpb]
  · rw [heab, hea, heba, heb]
  · rw [hoab, hoa, hoba, hob]

/-! ### The micro-steps of the modulator's commands -/

/-- R110 to R113: the read and the write-back of `SD_REG` that keep the bits `keep` and put in the bits `ins`. -/
abbrev updateSdReg (c : Cfg) (keep ins : Word) : List MicroOp := [.read c.sdAddr, .writeBack c.sdAddr keep ins]

theorem planOf_modulator (c : Cfg) {i : Instr}
    (h : i = .enable ∨ i = .disable ∨ (∃ v, i = .setTarget v) ∨ ∃ v, i = .setPrescale v) :
    ∃ keep ins, planOf c i = .run (updateSdReg c keep ins) := by
  rcases h with rfl | rfl | ⟨v, rfl⟩ | ⟨v, rfl⟩ <;> exact ⟨_, _, rfl⟩

/-- R81: a command that passes its checks is its micro-steps. -/
theorem exec_eq_perform {i : Instr} {s : State} {ops : List MicroOp} (h : planOf s.cfg i = .run ops) :
    exec i s = perform ops s.start := by
  rw [exec_eq_transact, h, transact_run]

/-! ### The results, when no other agent acts (R62) -/

/-- R110 to R113: the two accesses. -/
theorem blockOps_updateSdReg (s : State) (keep ins : Word) :
    blockOps (updateSdReg s.cfg keep ins) s = .next { s with
      sdReg := (s.sdReg &&& keep) ||| ins
      upc := s.upc + 2
      tmp := s.sdReg
      trace := s.trace ++ [rd s.cfg.sdAddr s.sdReg, wr s.cfg.sdAddr ((s.sdReg &&& keep) ||| ins)] } := by
  rw [blockOps_readModifyWrite (locate_sdAddr s.cfg) (w := s.sdReg) rfl]
  simp [blockOps, State.blockWrite, State.blockRead, State.log, State.writeLoc]

/-- R110 to R113: the two accesses and the answer; everything else is as before. -/
theorem exec_updateSdReg_quiet {i : Instr} {s : State} {keep ins : Word}
    (hi : planOf s.cfg i = .run (updateSdReg s.cfg keep ins)) (hq : s.QuietFor 3) :
    let v := (s.sdReg &&& keep) ||| ins
    exec i s = .next { s.afterCommand 2 s.sdReg [rd s.cfg.sdAddr s.sdReg, wr s.cfg.sdAddr v] with sdReg := v } :=
  exec_of_blockOps hi hq (blockOps_updateSdReg { s.start with sched := s.sched.drop 3 } keep ins)

/-- Settles O14: the bit put in is the field enable, and the write-back keeps the field other alone. -/
theorem enableResult : Obligations.EnableResult := fun s hq =>
  ⟨exec_updateSdReg_quiet (i := .enable) rfl hq, fields_of_enable_update (by decide) (by decide) (by decide) s.sdReg⟩

/-- Settles O15: as ENABLE, with no bit put in. -/
theorem disableResult : Obligations.DisableResult := by
  intro s hq v
  have hv : v = (s.sdReg &&& 0xFFFE0000#32) ||| 0x00000000#32 := BitVec.or_zero.symm
  rw [hv]
  exact ⟨exec_updateSdReg_quiet (i := .disable) rfl hq,
    fields_of_enable_update (by decide) (by decide) (by decide) s.sdReg⟩

/-- Settles O16: the operand fills the field target, and the write-back keeps the other three. -/
theorem setTargetResult : Obligations.SetTargetResult := fun s value hq =>
  ⟨exec_updateSdReg_quiet (i := .setTarget value) rfl hq, fields_of_target_update s.sdReg value⟩

/-- Settles O17: the operand fills the field prescale, and the write-back keeps the other three. -/
theorem setPrescaleResult : Obligations.SetPrescaleResult := fun s value hq =>
  ⟨exec_updateSdReg_quiet (i := .setPrescale value) rfl hq, fields_of_prescale_update s.sdReg value⟩

/-- R56: `SD_REG` is read at its address. -/
theorem memRead_sdAddr (s : State) : s.memRead s.cfg.sdAddr = some s.sdReg := memRead_of_locate (locate_sdAddr s.cfg)

/-- R110 to R113: what a command of the modulator leaves for the command after it. -/
theorem exec_updateSdReg_alone {i : Instr} {s : State} (hs : s.sched = []) {keep ins : Word}
    (hi : planOf s.cfg i = .run (updateSdReg s.cfg keep ins)) :
    ∃ t, exec i s = .next t ∧ t.sched = [] ∧ t.sdReg = (s.sdReg &&& keep) ||| ins ∧
      t.memRead s.cfg.sdAddr = some ((s.sdReg &&& keep) ||| ins) :=
  ⟨_, exec_updateSdReg_quiet hi (quietFor_of_nil hs 3), by simp [State.afterCommand, hs], rfl, memRead_sdAddr _⟩

/-- Settles O55: each command from the state that the other one leaves. -/
theorem targetAndPrescaleCommute : Obligations.TargetAndPrescaleCommute := by
  intro s a b hs
  obtain ⟨t, ht, hts, htsd, htread⟩ := exec_updateSdReg_alone (i := .setTarget a) hs rfl
  obtain ⟨u, hu, -, husd, -⟩ := exec_updateSdReg_alone (i := .setPrescale b) hts rfl
  obtain ⟨t', ht', hts', htsd', htread'⟩ := exec_updateSdReg_alone (i := .setPrescale b) hs rfl
  obtain ⟨u', hu', -, husd', -⟩ := exec_updateSdReg_alone (i := .setTarget a) hts' rfl
  refine ⟨t, u, t', u', ht, hu, ht', hu', ?_, htread, htread'⟩
  rw [husd, htsd, husd', htsd']
  exact target_prescale_updates_comm s.sdReg a b

/-! ### Accesses of other agents between the read and the write (R61) -/

/-- R12, R64: other agents make these accesses. -/
abbrev agentTurns (xs : List BusAccess) : List Turn := xs.map .agent

/-- R59: defined accesses of other agents are made one by one, whatever the order after them. -/
theorem agentsUntilBlock_of_lawful {s : State} (hw : s.Wf) {xs : List BusAccess}
    (hx : ∀ a ∈ xs, a.lawful s.cfg = true) :
    ∃ u : State, (∀ r, agentsUntilBlock (agentTurns xs ++ .block :: r) s = .next { u with sched := r }) ∧
      u.trace.length = s.trace.length + xs.length := by
  induction xs generalizing s with
  | nil => exact ⟨s, fun _ => rfl, rfl⟩
  | cons a xs ih =>
    obtain ⟨v, hv⟩ := busAccess_of_lawful hw (hx a (List.mem_cons_self ..))
    obtain ⟨hcfg, -⟩ := busAccess_rest hv
    have hlen : v.trace.length = s.trace.length + 1 := by
      rcases (busAccess_next hv).2 with ⟨x, -, -, rfl⟩ | ⟨x, l, -, -, rfl⟩ <;> simp
    obtain ⟨u, hu, hulen⟩ := ih (busAccess_wf hv hw) fun b hb => hcfg ▸ hx b (List.mem_cons_of_mem _ hb)
    refine ⟨u, fun r => ?_, ?_⟩
    · exact (congrArg (andThen · (agentsUntilBlock _)) hv).trans (hu r)
    · rw [hulen, hlen, List.length_cons, Nat.add_right_comm, Nat.add_assoc]

/-- R59: and so, when these are all that stands before the block's next action. -/
theorem agentsBefore_of_lawful {s : State} (hw : s.Wf) {xs : List BusAccess} (hx : ∀ a ∈ xs, a.lawful s.cfg = true)
    {r : List Turn} (hs : s.sched = agentTurns xs ++ .block :: r) :
    ∃ u, agentsBefore s = .next u ∧ u.sched = r ∧ u.trace.length = s.trace.length + xs.length := by
  obtain ⟨u, hu, hlen⟩ := agentsUntilBlock_of_lawful hw hx
  exact ⟨{ u with sched := r }, by rw [agentsBefore, hs, hu], rfl, hlen⟩

/-- R61, R115: a read-modify-write of `SD_REG` that finds the state `m` when it reads, with other agents' accesses
between the read and the write: the word it writes is that of `m`, and the accesses in the window are only added to the
trace. -/
theorem perform_updateSdReg {s m : State} (hread : agentsBefore s = .next m) (hm : m.Wf) {window : List BusAccess}
    (hwin : ∀ a ∈ window, a.lawful s.cfg = true) {r : List Turn}
    (hs : m.sched = agentTurns window ++ .block :: .block :: r) (keep ins : Word) :
    ∃ t, perform (updateSdReg s.cfg keep ins) s = .next t ∧ t.sdReg = (m.sdReg &&& keep) ||| ins ∧
      t.responses = s.responses ++ [0#4] ∧ t.sched = r ∧
      blockAccesses (newAccesses s t) =
        [rd s.cfg.sdAddr m.sdReg, wr s.cfg.sdAddr ((m.sdReg &&& keep) ||| ins)] ∧
      t.trace.length = m.trace.length + window.length + 2 := by
  obtain ⟨hcfg, -, -, -, -, -, -, -, hresp⟩ := agentsBefore_rest hread
  obtain ⟨-, new₁, hnew₁, hblock₁⟩ := agentsUntilBlock_trace hread
  rw [← hcfg] at hwin ⊢
  obtain ⟨w, hw, hwsched, hwlen⟩ := agentsBefore_of_lawful (s := m.blockRead m.cfg.sdAddr m.sdReg) hm hwin hs
  obtain ⟨hwcfg, -, -, -, htmp, -, -, -, hwresp⟩ := agentsBefore_rest hw
  obtain ⟨-, new₂, hnew₂, hblock₂⟩ := agentsUntilBlock_trace hw
  have haccess : blockAccess (.read m.cfg.sdAddr) m = .next (m.blockRead m.cfg.sdAddr m.sdReg) := by
    simp [blockAccess, memRead_sdAddr]
  have hwrite : blockAccess (.writeBack m.cfg.sdAddr keep ins) w =
      .next (w.blockWrite .sdReg m.cfg.sdAddr ((m.sdReg &&& keep) ||| ins)) := by
    simp [blockAccess, blockStore, hwcfg, htmp]
  refine ⟨(w.blockWrite .sdReg m.cfg.sdAddr ((m.sdReg &&& keep) ||| ins)).takeTurn.finish, ?_, rfl, ?_, ?_, ?_, ?_⟩
  · simp only [perform_cons, hread, andThen_next, haccess, hw, hwrite]
    exact perform_nil (r := r) (by simpa using hwsched)
  · simp [hwresp, hresp, respOk]
  · simp [hwsched]
  · simp only [blockAccesses] at hblock₁ hblock₂ ⊢
    simp [newAccesses, hnew₂, hnew₁, hblock₁, hblock₂]
  · simp [hwlen]
    omega

/-- Settles O29: both runs find the same state when they read. -/
theorem updateBetweenReadAndWriteIsLost : Obligations.UpdateBetweenReadAndWriteIsLost := by
  intro i s pre window r hi hw hx hs
  obtain ⟨hpre, hwin⟩ := List.forall_mem_append.mp hx
  obtain ⟨keep, ins, hplan⟩ := planOf_modulator s.cfg hi
  obtain ⟨m, hm, -⟩ := agentsUntilBlock_of_lawful (s := s.start) hw hpre
  have hread : agentsBefore s.start = .next { m with sched := agentTurns window ++ .block :: .block :: r } := by
    rw [agentsBefore, State.start_sched, hs, hm]
  let s' : State := { s with sched := agentTurns pre ++ .block :: .block :: .block :: r }
  have hread' : agentsBefore s'.start = .next { m with sched := .block :: .block :: r } :=
    (agentsUntilBlock_of_sched s'.sched s'.sched s.start).trans (hm _)
  obtain ⟨t, ht, htsd, htresp, htsched, htacc, htlen⟩ :=
    perform_updateSdReg hread (agentsBefore_wf hread hw) hwin rfl keep ins
  obtain ⟨u, hu, husd, -, -, huacc, hulen⟩ :=
    perform_updateSdReg hread' (agentsBefore_wf hread' hw) (window := []) (by simp) rfl keep ins
  refine ⟨t, u, (exec_eq_perform hplan).trans ht, (exec_eq_perform (s := s') hplan).trans hu, htsd.trans husd.symm,
    htresp, htsched, htacc.trans huacc.symm, ?_⟩
  rw [htlen, hulen]
  exact Nat.add_right_comm ..

/-! ### The frame -/

/-- R110 to R113, R125 to R127: a command that names no pin stores to `SD_REG` alone. -/
theorem opsFor_stores_sdAddr {c : Cfg} {p : PinCfg} {i : Instr} (hi : pinOperand i = none) :
    ∀ op ∈ opsFor c p i, ∀ b, op.stores = some b → b = c.sdAddr := by
  have hpair : ∀ keep ins, ∀ op ∈ updateSdReg c keep ins, ∀ b, op.stores = some b → b = c.sdAddr := by
    simp [MicroOp.stores]
  cases i with
  | enable => exact hpair _ _
  | disable => exact hpair _ _
  | setTarget v => exact hpair _ _
  | setPrescale v => exact hpair _ _
  | configDuty d m => exact List.forall_mem_append.mpr ⟨hpair _ _, hpair _ _⟩
  | presetA d => exact List.forall_mem_append.mpr ⟨hpair _ _, hpair _ _⟩
  | presetB d => exact List.forall_mem_append.mpr ⟨hpair _ _, hpair _ _⟩
  | bind | unbind | setup | close => cases hi

/-- Settles O32: a port, whose stores reach `OUT_EN`, has another address than `SD_REG`. -/
theorem modulatorAndConverterFrame : Obligations.ModulatorAndConverterFrame := by
  intro i s t addr hi hw h
  have hnone : pinOperand i = none := by
    rcases hi with rfl | rfl | ⟨v, rfl⟩ | ⟨v, rfl⟩ | ⟨d, m, rfl⟩ | ⟨d, rfl⟩ | ⟨d, rfl⟩ <;> rfl
  obtain ⟨-, hset, -, hclr, -⟩ := cfgWf_fixed_addrs hw.1
  refine ⟨fun hne hA => exec_frame h hA fun p _ _ op hop hstores => ?_, exec_rest h⟩
  have hsd := opsFor_stores_sdAddr hnone op hop
  rcases hstores with haddr | ⟨-, hport | hport⟩
  · exact hne (hsd _ haddr)
  · exact hset (hsd _ hport)
  · exact hclr (hsd _ hport)

end Sys2Proof.Machine

/-! PROOFS of the statements of 42_parameter_converter.md. A conversion is two read-modify-writes of `SD_REG`: the raw
duty into target, then the computed prescale. -/

namespace Sys2Proof.Machine

/-! ### The folded value and the computed prescale (R120, R124, R130) -/

/-- R120: the folded value is the same for a duty and its complement to 256. -/
theorem fold_neg (d : Byte) : fold (0#8 - d) = fold d := by
  have hd := d.isLt
  have hneg : (0#8 - d).toNat = (256 - d.toNat) % 256 := by simp
  unfold fold
  rw [hneg]
  split <;> split <;> omega

/-- R130: the duties whose folded value is at most `T` lie at the two ends of the range. -/
theorem fold_le_iff {T : Nat} (hT : T ≤ 128) (d : Byte) : fold d ≤ T ↔ d.toNat ≤ T ∨ 256 - T ≤ d.toNat := by
  have hd := d.isLt
  unfold fold
  split <;> omega

theorem fold_eq_zero_iff (d : Byte) : fold d = 0 ↔ d = 0#8 := (fold_eq_zero d).trans (BitVec.toNat_inj (y := 0#8))

/-- Settles O49: each law by whether the duty is above 128. -/
theorem foldLaws : Obligations.FoldLaws := by
  intro d
  have hmid : fold d = 128 ↔ d = 128#8 := by
    rw [← BitVec.toNat_inj]
    unfold fold
    split
    · simp; omega
    · simp
  have hsecond : fold d = (if d.toNat < 128 then d.toNat else 256 - d.toNat) := by
    unfold fold
    split <;> split <;> omega
  exact ⟨rfl, fold_le d, hmid, fold_eq_zero_iff d, fold_neg d, hsecond⟩

/-- R130: `T(m)` bounds the folded values whose prescale fits. -/
theorem fold_le_maxFold_iff {m : Nat} (hm : 0 < m) (d : Byte) : fold d ≤ maxFold m ↔ m * fold d ≤ 256 := by
  rw [maxFold, le_min_iff, and_iff_right (fold_le d), Nat.le_div_iff_mul_le hm, Nat.mul_comm]

theorem maxFold_eq_one {m : Nat} (hlo : 129 ≤ m) (hhi : m ≤ 255) : maxFold m = 1 := by
  have hdiv : 256 / m = 1 := Nat.div_eq_of_lt_le (by omega) (by omega)
  rw [maxFold, hdiv]
  rfl

/-- R124, R125: a prescale that fits is written as computed. -/
theorem low8_pre_toNat {m t : Nat} (h : m * t ≤ 256) : (low8 (pre m t)).toNat = if t = 0 then 0 else m * t - 1 := by
  have hle := (pre_le_255 m t).mpr (.inr h)
  rw [low8, BitVec.toNat_ofNat, Nat.mod_eq_of_lt (by omega), pre]

/-! ### The results, when no other agent acts (R62) -/

/-- R125: the four accesses of a conversion. -/
theorem blockOps_configure (s : State) (duty p : Byte) :
    let v1 := (s.sdReg &&& 0xFFFFFF00#32) ||| zext32 duty
    let v2 := (v1 &&& 0xFFFF00FF#32) ||| (zext32 p <<< 8)
    blockOps (opsConfigure s.cfg duty p) s = .next { s with
      sdReg := v2
      upc := s.upc + 4
      tmp := v1
      trace := s.trace ++ [rd s.cfg.sdAddr s.sdReg, wr s.cfg.sdAddr v1, rd s.cfg.sdAddr v1, wr s.cfg.sdAddr v2] } := by
  intro v1 v2
  rw [opsConfigure, opsSetTarget, List.cons_append, List.cons_append,
    blockOps_readModifyWrite (locate_sdAddr s.cfg) (w := s.sdReg) rfl, List.nil_append]
  refine (blockOps_updateSdReg ((s.blockRead s.cfg.sdAddr s.sdReg).blockWrite .sdReg s.cfg.sdAddr v1) _ _).trans ?_
  simp [v1, v2, State.blockWrite, State.blockRead, State.log, State.writeLoc]

/-- R125 to R127: a command whose micro-steps are a conversion ends in its result. -/
theorem exec_configure_quiet {i : Instr} {s : State} {duty p : Byte}
    (hi : planOf s.cfg i = .run (opsConfigure s.cfg duty p)) (hq : s.QuietFor 5) :
    exec i s = .next (convertedTo s duty p) :=
  exec_of_blockOps hi hq (blockOps_configure { s.start with sched := s.sched.drop 5 } duty p)

/-- R121, R125: the fields a conversion leaves. -/
theorem fields_of_convertedTo (s : State) (duty p : Byte) :
    targetField (convertedTo s duty p).sdReg = duty ∧ prescaleField (convertedTo s duty p).sdReg = p ∧
      enableField (convertedTo s duty p).sdReg = enableField s.sdReg ∧
      otherField (convertedTo s duty p).sdReg = otherField s.sdReg := by
  obtain ⟨htarget, -, henable, hother⟩ := fields_of_target_update s.sdReg duty
  obtain ⟨hprescale, htarget', henable', hother'⟩ :=
    fields_of_prescale_update ((s.sdReg &&& 0xFFFFFF00#32) ||| zext32 duty) p
  exact ⟨htarget'.trans htarget, hprescale, henable'.trans henable, hother'.trans hother⟩

/-- Settles O18: operands that pass the checks leave the conversion with the computed prescale. -/
theorem configDutyResult : Obligations.ConfigDutyResult := by
  intro s duty m hq hm hfit
  refine ⟨low8 (pre m.toNat (fold duty)), ?_, exec_configure_quiet (planConfigDuty_ok hm hfit) hq,
    fields_of_convertedTo s duty _⟩
  simp only [low8_pre_toNat hfit, fold_eq_zero]

/-- R126, R127: a preset is CONFIG_DUTY with a multiplier under which every duty fits. -/
theorem exec_preset_quiet {i : Instr} {s : State} {duty m : Byte} {k : Nat} (hq : s.QuietFor 5)
    (hi : exec i s = exec (.configDuty duty m) s) (hm : m.toNat = k) (hpos : k ≠ 0) (hk : k ≤ 2) :
    ∃ p : Byte, p.toNat = (if fold duty = 0 then 0 else k * fold duty - 1) ∧
      exec i s = .next (convertedTo s duty p) ∧ targetField (convertedTo s duty p).sdReg = duty := by
  subst hm
  have hfit : m.toNat * fold duty ≤ 256 := Nat.mul_le_mul hk (fold_le duty)
  obtain ⟨p, hp, hexec, htarget, -⟩ := configDutyResult s duty m hq hpos hfit
  simp only [← fold_eq_zero] at hp
  exact ⟨p, hp, hi.trans hexec, htarget⟩

/-- Settles O19: the prescale is 0 exactly at a folded value of at most 1. -/
theorem presetAResult : Obligations.PresetAResult := by
  intro s duty hq
  obtain ⟨hexec, -⟩ := presetsAreConfigDuty s duty
  obtain ⟨p, hp, hresult, htarget⟩ := exec_preset_quiet (k := 1) hq hexec rfl (by decide) (by decide)
  rw [Nat.one_mul] at hp
  have hfold := fold_le duty
  have hends := fold_le_iff (T := 1) (by decide) duty
  have hlt := duty.isLt
  refine ⟨p, hp, by split at hp <;> omega, ?_, hresult, htarget⟩
  simp only [← BitVec.toNat_inj, BitVec.toNat_ofNat]
  split at hp <;> omega

/-- Settles O20: twice a folded value above 0, less 1, is odd. -/
theorem presetBResult : Obligations.PresetBResult := by
  intro s duty hq
  obtain ⟨-, hexec⟩ := presetsAreConfigDuty s duty
  obtain ⟨p, hp, hresult, htarget⟩ := exec_preset_quiet (k := 2) hq hexec rfl (by decide) (by decide)
  have hp0 : p = 0#8 ↔ p.toNat = 0 := BitVec.toNat_inj.symm
  have hduty0 : duty = 0#8 ↔ fold duty = 0 := (fold_eq_zero_iff duty).symm
  refine ⟨p, hp, ?_, ?_, hresult, htarget⟩
  · rw [hp0]
    split at hp <;> omega
  · rw [hp0, hduty0]
    split at hp <;> omega

/-- R123: the frequency view of a duty other than 0 under the prescale `m * fold(duty) - 1`. -/
theorem freq_of_prescale {base : Rat} {duty p : Byte} {m : Nat} (hm : m ≠ 0) (hfold : fold duty ≠ 0)
    (hp : p.toNat = m * fold duty - 1) : freq base duty p = base / (256 * m) := by
  have hpos : 0 < m * fold duty := Nat.mul_pos (Nat.pos_of_ne_zero hm) (Nat.pos_of_ne_zero hfold)
  have hdiv : (p.toNat : Rat) + 1 = m * fold duty := by
    rw [hp]
    exact_mod_cast Nat.sub_add_cancel hpos
  have hm' : (m : Rat) ≠ 0 := Nat.cast_ne_zero.mpr hm
  have hfold' : (fold duty : Rat) ≠ 0 := Nat.cast_ne_zero.mpr hfold
  rw [freq, hdiv]
  field_simp

/-- Settles O52: the folded value of the duty stands in the prescale and in the view, and cancels. -/
theorem conversionSelectsTheFrequencyClass : Obligations.ConversionSelectsTheFrequencyClass := by
  intro s t duty m hq hm hfit ht
  obtain ⟨p, hp, hexec, htarget, hprescale, -⟩ := configDutyResult s duty m hq hm hfit
  obtain rfl : convertedTo s duty p = t := Host.Outcome.next.inj (hexec.symm.trans ht)
  have hview : (convertedTo s duty p).freq = freq s.cfg.fBase duty p := by
    rw [State.freq, State.sdTarget, State.sdPrescale, htarget, hprescale]
    rfl
  rw [hview]
  by_cases hd : duty = 0#8
  · simp [hd, freq, fold]
  · have hfold : fold duty ≠ 0 := mt (fold_eq_zero_iff duty).mp hd
    rw [if_neg hd]
    exact freq_of_prescale hm hfold (hp.trans (if_neg (mt (fold_eq_zero duty).mpr hfold)))

/-! ### A command ends under every lawful order (R59, R194) -/

theorem State.LaterThan.lawful {s u : State} (h : s.LaterThan u) (hs : s.Lawful) : u.Lawful := by
  obtain ⟨hcfg, hsched⟩ := h
  intro a ha
  rw [hcfg]
  exact hs a (hsched.subset ha)

theorem agentsBefore_laterThan {s t : State} (h : agentsBefore s = .next t) : s.LaterThan t :=
  ⟨(agentsBefore_rest h).1, agentsUntilBlock_sched h⟩

theorem runOps_laterThan {ops : List MicroOp} {s t : State} (h : runOps ops s = .next t) : s.LaterThan t :=
  ⟨(runOps_rest h).1, runOps_sched h⟩

/-- R59: an order of defined accesses is made up to the block's next action. -/
theorem agentsUntilBlock_completes {r : List Turn} {s : State} (hw : s.Wf)
    (hr : ∀ a, Turn.agent a ∈ r → a.lawful s.cfg = true) : ∃ t, agentsUntilBlock r s = .next t := by
  induction r generalizing s with
  | nil => exact ⟨_, rfl⟩
  | cons u r ih =>
    cases u with
    | block => exact ⟨_, rfl⟩
    | agent a =>
      obtain ⟨v, hv⟩ := busAccess_of_lawful hw (hr a (List.mem_cons_self ..))
      obtain ⟨hcfg, -⟩ := busAccess_rest hv
      obtain ⟨t, ht⟩ := ih (busAccess_wf hv hw) fun b hb => hcfg ▸ hr b (List.mem_cons_of_mem _ hb)
      exact ⟨t, andThen_eq_next.mpr ⟨v, hv, ht⟩⟩

theorem agentsBefore_completes {s : State} (hw : s.Wf) (hl : s.Lawful) : ∃ t, agentsBefore s = .next t :=
  agentsUntilBlock_completes hw hl

/-- R51, R59: micro-steps that reach registers only are all made. -/
theorem runOps_completes {ops : List MicroOp} {s : State} (hw : s.Wf) (hl : s.Lawful)
    (hops : ∀ op ∈ ops, op.Reaches s.cfg) : ∃ t, runOps ops s = .next t := by
  induction ops generalizing s with
  | nil => exact ⟨s, rfl⟩
  | cons op ops ih =>
    obtain ⟨u, hu⟩ := agentsBefore_completes hw hl
    have hlater := agentsBefore_laterThan hu
    obtain ⟨v, hv⟩ := blockAccess_of_reaches (agentsBefore_wf hu hw) (hlater.1 ▸ hops op (List.mem_cons_self ..))
    have hlater' : s.LaterThan v :=
      hlater.trans ⟨(blockAccess_rest hv).1, (blockAccess_keeps_sched hv).symm ▸ List.suffix_refl _⟩
    obtain ⟨t, ht⟩ := ih (blockAccess_wf hv (agentsBefore_wf hu hw)) (hlater'.lawful hl)
      fun o ho => hlater'.1 ▸ hops o (List.mem_cons_of_mem _ ho)
    exact ⟨t, andThen_eq_next.mpr ⟨v, andThen_eq_next.mpr ⟨u, hu, hv⟩, ht⟩⟩

/-- R59, R152, R194: every command ends in a next state, with its answer or with its fault. -/
theorem exec_completes (i : Instr) {s : State} (hw : s.Wf) (hl : s.Lawful) : ∃ t, exec i s = .next t := by
  rw [exec_eq_transact]
  cases hp : planOf s.cfg i with
  | raise c =>
    obtain ⟨u, hu⟩ := agentsBefore_completes hw hl
    exact ⟨_, performRaise_next.mpr ⟨u, hu, rfl⟩⟩
  | run ops =>
    obtain ⟨p, hpin, rfl⟩ := planOf_run hp
    obtain ⟨u, hu⟩ := runOps_completes (s := s.start) hw hl (opsFor_reaches hw.1 hpin)
    obtain ⟨v, hv⟩ := agentsBefore_completes (runOps_wf (s := s.start) hu hw) ((runOps_laterThan hu).lawful hl)
    exact ⟨_, perform_next.mpr ⟨u, v, hu, hv, rfl⟩⟩

/-- R81, R151: no fault answers as a command that ends without one. -/
theorem Cause.resp_ne_ok (c : Cause) : c.resp ≠ 0#4 := by cases c <;> decide

/-- R150, R152: a command answers 0 exactly when its operands are in range. -/
theorem exec_answers_ok_iff {i : Instr} {s t : State} (h : exec i s = .next t) :
    t.responses = s.responses ++ [0#4] ↔ i.Wf s.cfg := by
  rcases exec_next h with ⟨c, u, hp, hu, rfl⟩ | ⟨ops, u, v, hp, hr, hv, rfl⟩
  · obtain ⟨-, -, -, -, -, -, -, -, hresp⟩ := agentsBefore_rest hu
    have hnot : ¬ i.Wf s.cfg := fun hwf => by
      obtain ⟨ops, hops⟩ := planOf_run_of_wf hwf
      simp [hops] at hp
    simp [hresp, hnot, c.resp_ne_ok]
  · obtain ⟨-, -, -, -, -, -, hresp⟩ := runOps_rest hr
    obtain ⟨-, -, -, -, -, -, -, -, hresp'⟩ := agentsBefore_rest hv
    simp [hresp', hresp, respOk, wf_of_planOf_run hp]

/-- Settles O50: under a lawful order the command ends, and its answer says whether the operands are in range. -/
theorem converterAcceptedDomain : Obligations.ConverterAcceptedDomain := by
  refine ⟨fun s duty m hw hl => ⟨?_, fun _ => fold_le_iff (min_le_left _ _) duty, ?_⟩, by decide,
    fun m hlo hhi => maxFold_eq_one hlo hhi⟩
  · obtain ⟨t, ht⟩ := exec_completes (.configDuty duty m) hw hl
    calc (∃ t, exec (.configDuty duty m) s = .next t ∧ t.responses = s.responses ++ [0#4])
        ↔ m.toNat ≠ 0 ∧ m.toNat * fold duty ≤ 256 :=
          ⟨fun ⟨_, hu, hresp⟩ => (exec_answers_ok_iff hu).mp hresp,
            fun h => ⟨t, ht, (exec_answers_ok_iff ht).mpr h⟩⟩
      _ ↔ 1 ≤ m.toNat ∧ fold duty ≤ maxFold m.toNat := by
          rw [← Nat.pos_iff_ne_zero]
          exact and_congr_right fun hm => (fold_le_maxFold_iff hm duty).symm
  · rintro (rfl | rfl) <;> exact fold_le duty

end Sys2Proof.Machine

/-! PROOFS of the statements of 43_composite.md. The micro-steps of SETUP and CLOSE are those of two commands, one after
the other, and so are their accesses, what they leave, and where they store. -/

namespace Sys2Proof.Machine

/-! ### The results, when no other agent acts (R62) -/

theorem planOf_setup {c : Cfg} {pin : Byte} {p : PinCfg} (hp : c.pins[pin.toNat]? = some p) :
    planOf c (.setup pin) = .run (opsSetup c pin p) := planPin_of_some hp _

theorem planOf_close {c : Cfg} {pin : Byte} {p : PinCfg} (hp : c.pins[pin.toNat]? = some p) :
    planOf c (.close pin) = .run (opsClose c pin p) := planPin_of_some hp _

/-- R63: the accesses of two lists of micro-steps are those of the first and then those of the second. -/
theorem blockOps_append {xs ys : List MicroOp} {s u : State} (h : blockOps xs s = .next u) :
    blockOps (xs ++ ys) s = blockOps ys u := by
  induction xs generalizing s with
  | nil => cases h; rfl
  | cons op ops ih =>
    obtain ⟨v, hv, hrest⟩ := andThen_eq_next.mp h
    exact (congrArg (andThen · (blockOps (ops ++ ys))) hv).trans (ih hrest)

/-- R140: the two accesses of ENABLE and the five of BIND. -/
theorem blockOps_setup {s : State} (hw : s.cfg.Wf) {pin : Byte} {p : PinCfg} (hp : s.cfg.pins[pin.toNat]? = some p)
    {f c : Word} (hf : s.func[pin.toNat]? = some f) (hc : s.pinCtrl[pin.toNat]? = some c) :
    let v := (s.sdReg &&& 0xFFFE0000#32) ||| 0x00010000#32
    let f' := (f &&& ~~~s.cfg.funcMask) ||| p.funcBits
    let c' := c ||| s.cfg.srcMask
    blockOps (opsSetup s.cfg pin p) s = .next { s with
      sdReg := v
      func := s.func.set pin.toNat f'
      pinCtrl := s.pinCtrl.set pin.toNat c'
      outEn := s.outEn ||| pinBit pin
      upc := s.upc + 7
      tmp := c
      trace := s.trace ++ [rd s.cfg.sdAddr s.sdReg, wr s.cfg.sdAddr v, rd p.funcAddr f, wr p.funcAddr f',
        rd p.ctrlAddr c, wr p.ctrlAddr c', wr s.cfg.outEnSetAddr (pinBit pin)] } := by
  intro v f' c'
  rw [opsSetup, opsEnable, blockOps_append (blockOps_updateSdReg s _ _),
    blockOps_bind (g := s.cfg) (f := f) (c := c) _ hw hp]
  · simp [v, f', c']
  · exact hf
  · exact hc
  · rfl

/-- R141: the three accesses of UNBIND and the two of DISABLE. -/
theorem blockOps_close {s : State} (hw : s.cfg.Wf) {pin : Byte} {p : PinCfg} (hp : s.cfg.pins[pin.toNat]? = some p)
    {c : Word} (hc : s.pinCtrl[pin.toNat]? = some c) :
    let v := (s.sdReg &&& 0xFFFE0000#32) ||| 0x00000000#32
    let c' := c &&& ~~~s.cfg.srcMask
    blockOps (opsClose s.cfg pin p) s = .next { s with
      sdReg := v
      pinCtrl := s.pinCtrl.set pin.toNat c'
      outEn := s.outEn &&& ~~~pinBit pin
      upc := s.upc + 5
      tmp := s.sdReg
      trace := s.trace ++ [wr s.cfg.outEnClrAddr (pinBit pin), rd p.ctrlAddr c, wr p.ctrlAddr c',
        rd s.cfg.sdAddr s.sdReg, wr s.cfg.sdAddr v] } := by
  intro v c'
  refine (blockOps_append (blockOps_unbind rfl hw hp hc)).trans ((blockOps_updateSdReg _ _ _).trans ?_)
  simp [v, c']

/-- Settles O23: the seven accesses, and the bits they set; those of the pin are the ones BIND sets. -/
theorem setupResult : Obligations.SetupResult := by
  intro s pin p f c hw hp hf hc hq v f' c'
  refine ⟨_, ?_, rfl, ?_, enableField_writeBack_replaced (by decide) s.sdReg _⟩
  · have hrun := blockOps_setup (s := { s.start with sched := s.sched.drop 8 }) hw.1 hp hf hc
    exact (exec_of_blockOps (planOf_setup hp) hq hrun).trans rfl
  · obtain ⟨t, -, rfl, hbound⟩ :=
      bindResult { s with sched := [] } pin p f c hw hp hf hc (quietFor_of_nil rfl 6)
    exact hbound

/-- Settles O24: the five accesses, and the bits they clear. -/
theorem closeResult : Obligations.CloseResult := by
  intro s pin p c hw hp hc hq v c'
  have hv : v = (s.sdReg &&& 0xFFFE0000#32) ||| 0x00000000#32 := BitVec.or_zero.symm
  rw [hv]
  refine ⟨_, ?_, rfl, ?_, enableField_writeBack_replaced (by decide) s.sdReg _⟩
  · have hrun := blockOps_close (s := { s.start with sched := s.sched.drop 6 }) hw.1 hp hc
    exact (exec_of_blockOps (planOf_close hp) hq hrun).trans rfl
  · exact Bool.and_eq_false_iff.mpr (.inr (getLsbD_andNot_bit s.outEn pin.toNat))

/-! ### The frame -/

/-- Settles O34: each store is one of the two commands': to `SD_REG`, to a register of the pin, or to a port. -/
theorem compositeFrame : Obligations.CompositeFrame := by
  intro s t pin addr hw hout hsd hA hctrl
  refine ⟨fun h => exec_frame_of_stores hw hout hA h fun p hp op hop hstores => ?_,
    fun hfunc h => exec_frame_of_stores hw hout hA h fun p hp op hop hstores => ?_⟩
  · rcases List.mem_append.mp hop with hunbind | hdisable
    · rcases opsUnbind_stores hunbind hstores with hclr | hc
      · exact .inr hclr.symm
      · exact absurd hc.symm (hctrl p (hp pin rfl))
    · exact absurd (opsFor_stores_sdAddr (p := p) (i := .disable) rfl op hdisable addr hstores) hsd
  · rcases List.mem_append.mp hop with henable | hbind
    · exact absurd (opsFor_stores_sdAddr (p := p) (i := .enable) rfl op henable addr hstores) hsd
    · rcases opsBind_stores hbind hstores with hf | hc | hset
      · exact absurd hf.symm (hfunc p (hp pin rfl))
      · exact absurd hc.symm (hctrl p (hp pin rfl))
      · exact .inl hset.symm

end Sys2Proof.Machine

/-! PROOFS of the statements of 60_exceptions.md. The checks of a command decide its fault before any access, the answer
writes the record, and the record keeps the first fault. -/

namespace Sys2Proof.Machine

/-! ### Which fault the checks of a word come to (R154 to R158) -/

/-- R155: the four pin commands check their pin and nothing else. -/
theorem planOf_eq_planPin {i : Instr} {pin : Byte} (h : pinOperand i = some pin) (c : Cfg) :
    ∃ f, planOf c i = planPin c pin f := by
  cases i with
  | bind p => cases h; exact ⟨_, rfl⟩
  | unbind p => cases h; exact ⟨_, rfl⟩
  | setup p => cases h; exact ⟨_, rfl⟩
  | close p => cases h; exact ⟨_, rfl⟩
  | _ => cases h

theorem planPin_cause {c : Cfg} {pin : Byte} {f : PinCfg → List MicroOp} {e : Cause}
    (h : planPin c pin f = .raise e) : e = .pinRange := by
  unfold planPin at h
  split at h
  · exact (Plan.raise.inj h).symm
  · cases h

/-- R158: MultZero comes before PrescaleRange. -/
theorem planConfigDuty_cause {c : Cfg} {duty m : Byte} {e : Cause} (h : planConfigDuty c duty m = .raise e) :
    e = if m = 0#8 then .multZero else .prescaleRange := by
  have hm : m = 0#8 ↔ m.toNat = 0 := BitVec.toNat_inj.symm
  unfold planConfigDuty at h
  split at h
  next h0 => rw [if_pos (hm.mpr h0)]; exact (Plan.raise.inj h).symm
  next h0 =>
    rw [if_neg (mt hm.mp h0)]
    split at h
    · exact (Plan.raise.inj h).symm
    · cases h

theorem planOf_raise_of_not_wf {c : Cfg} {i : Instr} (h : ¬ i.Wf c) :
    ∃ e, planOf c i = .raise e ∧ e ≠ .illegalCommand :=
  (planOf_cases c i).elim (fun hok => absurd hok.1 h) And.right

theorem wordPlan_of_decode {w : Word} {i : Instr} (h : decode w = .ok i) (c : Cfg) : wordPlan c w = planOf c i := by
  simp only [wordPlan, h]

theorem wordPlan_of_illegal {w : Word} (h : ∀ i, decode w ≠ .ok i) (c : Cfg) :
    wordPlan c w = .raise .illegalCommand := by
  unfold wordPlan
  cases hd : decode w with
  | error e => rfl
  | ok i => exact absurd hd (h i)

/-- R152: a word that is illegal or whose operands are out of range faults, in every state. -/
theorem wordPlan_raise {c : Cfg} {w : Word} (h : ∀ i, decode w = .ok i → ¬ i.Wf c) :
    ∃ e, wordPlan c w = .raise e := by
  cases hd : decode w with
  | error e => exact ⟨_, wordPlan_of_illegal (by simp [hd]) c⟩
  | ok i =>
    obtain ⟨e, he, -⟩ := planOf_raise_of_not_wf (h i hd)
    exact ⟨e, (wordPlan_of_decode hd c).trans he⟩

/-! ### The answer of a command that faults (R152) -/

/-- R152: whatever the other agents do before it, the answer is the cause's code, the block is idle and the record keeps
the first fault. -/
theorem performRaise_rest {c : Cause} {s t : State} (h : performRaise c s = .next t) :
    t.busy = false ∧ t.responses = s.responses ++ [c.resp] ∧ t.fault = s.fault.latch c s.curCmd := by
  obtain ⟨u, hu, rfl⟩ := performRaise_next.mp h
  obtain ⟨-, -, hcmd, -, -, hfault, -, -, hresp⟩ := agentsBefore_rest hu
  simp [hcmd, hfault, hresp]

theorem exec_of_raise {i : Instr} {s : State} {c : Cause} (hp : planOf s.cfg i = .raise c) :
    exec i s = performRaise c s := by
  rw [exec_eq_transact, hp]
  rfl

/-- R81: the step of a presented word that faults is the sampling and the answer. -/
theorem step_of_raise {s : State} {w : Word} {c : Cause} (hb : s.busy = false) (h : ∀ a r, s.sched ≠ .agent a :: r)
    (hw : s.stream[s.pc]? = some w) (hp : wordPlan s.cfg w = .raise c) :
    step s = performRaise c (s.takeTurn.sample w) := by
  rw [step_present hb h hw, resume_sample, State.takeTurn_cfg, hp]
  rfl

/-- R34: a word in flight that faults is answered by the block's next action. -/
theorem microStep_of_raise {s : State} {c : Cause} (hb : s.busy = true) (h : ∀ a r, s.sched ≠ .agent a :: r)
    (hp : wordPlan s.cfg s.curCmd = .raise c) : microStep s = .next (s.takeTurn.raise c) := by
  have hf : s.takeTurn.inFlight = .raise c := by simp [State.inFlight, hp, Plan.drop]
  rw [microStep_block h]
  exact blockAction_raise hb hf

/-- R62, R152: the whole next state, when no other agent acts before the answer. -/
theorem exec_raise_afterFault {i : Instr} {s : State} {c : Cause} (hp : planOf s.cfg i = .raise c) (hq : s.QuietFor 1) :
    exec i s = .next (s.afterFault c.code s.curCmd) := exec_raise_quiet hp hq

/-- Settles O36: a pin number at or above `NPINS` fails the only check of these commands. -/
theorem pinOutOfRangeFaults : Obligations.PinOutOfRangeFaults := by
  intro i s pin hpin hge hq
  obtain ⟨f, hplan⟩ := planOf_eq_planPin hpin s.cfg
  exact exec_raise_afterFault (hplan.trans (planPin_of_not_ok (Nat.not_lt.mpr hge) f)) hq

/-- Settles O37: the multiplier is checked first. -/
theorem zeroMultiplierFaults : Obligations.ZeroMultiplierFaults := fun _ _ hq =>
  exec_raise_afterFault (c := .multZero) (planConfigDuty_mult rfl) hq

/-- Settles O40: of the two kinds of plan only one with micro-steps ends in the answer 0. -/
theorem onlyOperandsDecideFaults : Obligations.OnlyOperandsDecideFaults := fun _ _ _ h => exec_answers_ok_iff h

/-- Settles O38: a computed prescale above 255 is a product above 256, and the presets have no check. -/
theorem prescaleOutOfRangeFaults : Obligations.PrescaleOutOfRangeFaults := by
  refine ⟨fun s duty m hm _ hbig hq => ?_, fun s t duty h => ?_⟩
  · exact exec_raise_afterFault (c := .prescaleRange) (planConfigDuty_pre (by omega) (by omega)) hq
  · rcases h with h | h <;> exact ⟨(exec_answers_ok_iff h).mpr trivial, (exec_rest h).1 trivial⟩

theorem QuietFor.sample {s : State} {n : Nat} (h : s.QuietFor (n + 1)) (w : Word) : (s.takeTurn.sample w).QuietFor n :=
  fun t ht => QuietFor.drop h t (by simpa using ht)

/-- Settles O39: the sampling puts the word in flight, and the answer records it. -/
theorem faultingCommandRecordsItsWord : Obligations.FaultingCommandRecordsItsWord := by
  intro s w i hb hq hw hd hwf
  obtain ⟨e, hplan, hlegal⟩ := planOf_raise_of_not_wf hwf
  have hstep := step_of_decode hb (QuietFor.head_block hq) hw hd
  refine ⟨e.code, ?_, hstep.trans (exec_raise_afterFault hplan (QuietFor.sample hq w))⟩
  cases e with
  | illegalCommand => exact absurd rfl hlegal
  | pinRange => exact .inl rfl
  | multZero => exact .inr (.inl rfl)
  | prescaleRange => exact .inr (.inr rfl)

/-! ### Every interleaving of the other agents (R159) -/

/-- R37, R81: a command ends with the block idle and the host's index one further. -/
theorem exec_ends_idle {i : Instr} {s t : State} (h : exec i s = .next t) : t.busy = false ∧ t.pc = s.pc + 1 := by
  rcases exec_next h with ⟨c, u, -, hu, rfl⟩ | ⟨ops, u, v, -, hr, hv, rfl⟩
  · obtain ⟨-, -, -, -, -, -, -, hpc, -⟩ := agentsBefore_rest hu
    exact ⟨rfl, congrArg (· + 1) hpc⟩
  · obtain ⟨-, -, -, -, -, hpc, -⟩ := runOps_rest hr
    obtain ⟨-, -, -, -, -, -, -, hpc', -⟩ := agentsBefore_rest hv
    exact ⟨rfl, congrArg (· + 1) (hpc'.trans hpc)⟩

/-- Settles O25: a defined order is made to its end, and operands in range pass the checks. -/
theorem inRangeCommandCompletesUnderAnySchedule : Obligations.InRangeCommandCompletesUnderAnySchedule := by
  intro i s hw hl hwf
  obtain ⟨t, ht⟩ := exec_completes i hw hl
  obtain ⟨hbusy, hpc⟩ := exec_ends_idle ht
  obtain ⟨hfault, hrest⟩ := exec_rest ht
  exact ⟨t, ht, (exec_answers_ok_iff ht).mpr hwf, hbusy, hpc, hfault hwf, hrest⟩

@[simp] theorem memRead_sample (s : State) (w b : Word) : (s.takeTurn.sample w).memRead b = s.memRead b :=
  memRead_congr rfl (fun l => by cases l <;> rfl) b

/-- Settles O59: between the sampling and the answer there are accesses of other agents only. -/
theorem faultingWordTouchesNoRegister : Obligations.FaultingWordTouchesNoRegister := by
  intro s t w addr hb hblock hw hfaults hstep
  obtain ⟨c, hplan⟩ := wordPlan_raise hfaults
  rw [step_of_raise hb hblock hw hplan] at hstep
  obtain ⟨u, hu, rfl⟩ := performRaise_next.mp hstep
  refine ⟨fun hleave => ?_, ?_⟩
  · have hleave' : (s.takeTurn.sample w).AgentsLeave addr := fun a ha => hleave a (List.mem_of_mem_tail ha)
    rw [memRead_raise, agentsBefore_frame hu hleave', memRead_sample]
  · obtain ⟨-, new, hnew, hnone⟩ := agentsUntilBlock_trace hu
    simpa [newAccesses, hnew] using hnone

/-! ### The record keeps the first fault (R153) -/

theorem latch_of_valid {f : FaultRecord} (h : f.valid = true) (c : Cause) (cmd : Word) : f.latch c cmd = f := if_pos h

theorem latch_of_empty {f : FaultRecord} (h : f.valid = false) (c : Cause) (cmd : Word) :
    f.latch c cmd = ⟨true, c.code, cmd⟩ := by
  simp [FaultRecord.latch, h]

theorem latch_valid (f : FaultRecord) (c : Cause) (cmd : Word) : (f.latch c cmd).valid = true := by
  cases hv : f.valid with
  | true => rwa [latch_of_valid hv]
  | false => rw [latch_of_empty hv]

theorem Cause.code_bounds (c : Cause) : 1 ≤ c.code.toNat ∧ c.code.toNat ≤ 4 := by cases c <;> decide

/-- R152, R153: `g` is `f`, or `f` with one fault entered. -/
def FaultRecord.LaterThan (f g : FaultRecord) : Prop := g = f ∨ ∃ c cmd, g = f.latch c cmd

theorem FaultRecord.LaterThan.latch {f g : FaultRecord} (h : f.LaterThan g) (c : Cause) (cmd : Word) :
    f.LaterThan (g.latch c cmd) := by
  rcases h with rfl | ⟨d, w, rfl⟩
  · exact .inr ⟨c, cmd, rfl⟩
  · exact .inr ⟨d, w, latch_of_valid (latch_valid f d w) c cmd⟩

theorem FaultRecord.LaterThan.eq_of_valid {f g : FaultRecord} (h : f.LaterThan g) (hv : f.valid = true) : g = f := by
  rcases h with rfl | ⟨c, cmd, rfl⟩
  · rfl
  · exact latch_of_valid hv c cmd

theorem FaultRecord.LaterThan.valid_of_ne {f g : FaultRecord} (h : f.LaterThan g) (hne : g ≠ f) :
    g.valid = true ∧ 1 ≤ g.cause.toNat ∧ g.cause.toNat ≤ 4 := by
  rcases h with rfl | ⟨c, cmd, rfl⟩
  · exact absurd rfl hne
  · cases hv : f.valid with
    | true => exact absurd (latch_of_valid hv c cmd) hne
    | false =>
      rw [latch_of_empty hv]
      exact ⟨rfl, c.code_bounds⟩

/-- R151 to R153: a micro-step leaves the record or enters the fault it answers with. -/
theorem microStep_fault {f : FaultRecord} (s t : State) (hf : f.LaterThan s.fault) (h : microStep s = .next t) :
    f.LaterThan t.fault := by
  rcases microStep_next h with ⟨a, r, -, hacc⟩ | hblock
  · obtain ⟨-, -, -, -, -, hfault, -⟩ := busAccess_rest hacc
    rwa [hfault]
  · rcases blockAction_next hblock with ⟨-, cmd, -, rfl⟩ | ⟨-, c, -, rfl⟩ | ⟨-, -, rfl⟩ | ⟨-, op, ops, -, hacc⟩
    · exact hf
    · exact hf.latch c s.curCmd
    · exact hf
    · obtain ⟨-, -, -, -, hfault, -⟩ := blockAccess_rest hacc
      rwa [hfault]

/-- R151: the code of a faulting word, by what is wrong with it. -/
theorem wordPlan_code {c : Cfg} {w : Word} {e : Cause} (h : wordPlan c w = .raise e) :
    ((∀ i, decode w ≠ .ok i) → e.code = 1#3) ∧
    (∀ i pin, decode w = .ok i → pinOperand i = some pin → e.code = 2#3) ∧
    (∀ d m, decode w = .ok (.configDuty d m) → e.code = if m = 0#8 then 3#3 else 4#3) := by
  refine ⟨fun hill => ?_, fun i pin hd hpin => ?_, fun d m hd => ?_⟩
  · obtain rfl := Plan.raise.inj (h.symm.trans (wordPlan_of_illegal hill c))
    rfl
  · obtain ⟨f, hf⟩ := planOf_eq_planPin hpin c
    rw [wordPlan_of_decode hd, hf] at h
    rw [planPin_cause h]
    rfl
  · rw [wordPlan_of_decode hd] at h
    rw [planConfigDuty_cause h]
    split <;> rfl

/-- R152: under a defined order a presented word that faults is answered. -/
theorem performRaise_completes (c : Cause) {s : State} (hw : s.Wf) (hl : s.Lawful) : ∃ t, performRaise c s = .next t := by
  obtain ⟨u, hu⟩ := agentsBefore_completes hw hl
  exact ⟨_, performRaise_next.mpr ⟨u, hu, rfl⟩⟩

/-- Settles O41: what a fault enters in the record, and that nothing else reaches it. -/
theorem faultRecordKeepsTheFirst : Obligations.FaultRecordKeepsTheFirst := by
  refine ⟨fun s w hfaults hblock => ?_, fun s t h => ?_, fun a s t h => ?_, fun i s t hwf h => ?_, fun _ _ => rfl⟩
  · obtain ⟨e, hplan⟩ := wordPlan_raise hfaults
    obtain ⟨hillegal, hpin, hduty⟩ := wordPlan_code hplan
    refine ⟨e.code, hillegal, hpin, hduty, fun hb hw hwf hl => ?_, fun hb hcmd => ?_⟩
    · have hl' : (s.takeTurn.sample w).Lawful := fun a ha => hl a (List.mem_of_mem_tail ha)
      obtain ⟨t, ht⟩ := performRaise_completes e (s := s.takeTurn.sample w) hwf hl'
      obtain ⟨hidle, hresp, hfault⟩ := performRaise_rest ht
      exact ⟨t, (step_of_raise hb hblock hw hplan).trans ht, hidle, hresp, hfault⟩
    · subst hcmd
      exact ⟨_, microStep_of_raise hb hblock hplan, rfl, rfl, rfl⟩
  · have hlater : s.fault.LaterThan t.fault := by
      rcases h with h | h
      · exact step_keeps (P := fun u => s.fault.LaterThan u.fault) microStep_fault (.inl rfl) h
      · exact microStep_fault s t (.inl rfl) h
    exact ⟨hlater.eq_of_valid, hlater.valid_of_ne⟩
  · obtain ⟨-, -, -, -, -, hfault, -⟩ := busAccess_rest h
    exact hfault
  · obtain ⟨e, hplan, -⟩ := planOf_raise_of_not_wf hwf
    obtain ⟨-, hresp, hfault⟩ := performRaise_rest (exec_of_raise hplan ▸ h)
    refine ⟨fun hv => hfault.trans (latch_of_valid hv e _), fun hv => ?_, e.resp, e.resp_ne_ok, hresp⟩
    rw [hfault, latch_of_empty hv]
    exact ⟨rfl, rfl, hresp⟩

end Sys2Proof.Machine

/-! PROOFS of the statements of 70_reset_and_hazards.md. The state after reset and the first command from it, and the pins
that share the modulator with the pin of a command. -/

namespace Sys2Proof.Machine

/-! ### Reset (R180, R181) -/

/-- R180: what reset fixes is all that the invariant asks of a well-formed state. -/
theorem inv_resetOf {c : Cfg} {k : Contents} (hc : c.Wf) (hctrl : k.pinCtrl.length = c.npins)
    (hfunc : k.func.length = c.npins) : (State.resetOf c k).Inv := by
  have hidle : (State.resetOf c k).busy ≠ true := Bool.false_ne_true
  exact ⟨⟨hc, hctrl, hfunc⟩, fun h => absurd h hidle, rfl, rfl, le_rfl, fun h => absurd h hidle⟩

theorem refCfg_wf : refCfg.Wf := by decide

/-- Settles O43: nothing is in flight, recorded or answered, and the register contents are free. -/
theorem resetMeetsTheInvariant : Obligations.ResetMeetsTheInvariant := by
  refine ⟨fun c k hc hctrl hfunc => ⟨inv_resetOf hc hctrl hfunc, rfl, rfl, rfl⟩, ?_, fun s k => ?_⟩
  · exact inv_resetOf refCfg_wf List.length_replicate List.length_replicate
  · exact ⟨rfl, rfl, rfl, rfl, rfl, rfl, rfl, rfl⟩

/-! ### The first command (R183) -/

/-- R21: the bits of a word written back that the write-back does not keep. -/
theorem writeBack_and_of_replaced {keep m : Word} (hk : keep &&& m = 0#32) (w ins : Word) :
    ((w &&& keep) ||| ins) &&& m = ins &&& m := by
  rw [BitVec.and_or_distrib_right, BitVec.and_assoc, hk, BitVec.and_zero, BitVec.zero_or]

/-- R110, R111, R183: a first command that puts in the field enable with both parameters 0. -/
theorem step_resetOf_of_enable_update (c : Cfg) (k : Contents) {w : Word} {i : Instr} (hd : decode w = .ok i)
    {ins : Word} (hi : planOf c i = .run (updateSdReg c 0xFFFE0000#32 ins)) (hins : ins &&& 0x0001FFFF#32 = ins)
    (ho : otherField ins = 0#15) :
    ∃ t, step ((State.resetOf c k).withFetchWord 32 w.toNat) = .next t ∧ t.sdReg &&& 0x0001FFFF#32 = ins ∧
      otherField t.sdReg = otherField k.sdReg ∧ t.FaultFree := by
  obtain ⟨hstep, -⟩ := placedWordRunsNext (State.resetOf c k) w i hd
  rw [hstep]
  refine ⟨_, exec_updateSdReg_quiet hi (quietFor_of_nil rfl 3), ?_, otherField_writeBack (by decide) ho k.sdReg, rfl⟩
  exact (writeBack_and_of_replaced (by decide) k.sdReg ins).trans hins

/-- Settles O58: neither command keeps a bit of the fields that reset left. -/
theorem firstCommandAfterReset : Obligations.FirstCommandAfterReset := fun c k =>
  ⟨step_resetOf_of_enable_update c k (w := 0x01000000#32) (i := .enable) rfl rfl (by decide) (by decide),
    step_resetOf_of_enable_update c k (w := 0x02000000#32) (i := .disable) rfl rfl (by decide) (by decide)⟩

/-! ### The other pins (R188, R189) -/

/-- R33: a pin is bound by its own register and its own bit of `OUT_EN`. -/
theorem bound_of_same_bits {s t : State} {n : Nat} (h : s.bound n = true) (hcfg : t.cfg = s.cfg)
    (hctrl : t.pinCtrl[n]? = s.pinCtrl[n]?) (hout : t.outEn.getLsbD n = s.outEn.getLsbD n) : t.bound n = true := by
  rw [← h]
  simp only [State.bound, State.srcSelected, State.outputEnabled, hcfg, hctrl, hout]

theorem getLsbD_bit_of_ne {j k : Nat} (h : k ≠ j) : (1#32 <<< j).getLsbD k = false := by
  rw [← BitVec.twoPow_eq, BitVec.getLsbD_twoPow, decide_eq_false h.symm, Bool.and_false]

theorem getLsbD_or_other_bit {j k : Nat} (h : k ≠ j) (w : Word) : (w ||| 1#32 <<< j).getLsbD k = w.getLsbD k := by
  rw [BitVec.getLsbD_or, getLsbD_bit_of_ne h, Bool.or_false]

theorem getLsbD_andNot_other_bit {j k : Nat} (h : k ≠ j) (w : Word) :
    (w &&& ~~~(1#32 <<< j)).getLsbD k = w.getLsbD k := by
  by_cases hk : k < 32
  · rw [BitVec.getLsbD_and, BitVec.getLsbD_not, getLsbD_bit_of_ne h]
    simp [hk]
  · rw [BitVec.getLsbD_of_ge _ k (by omega), BitVec.getLsbD_of_ge _ k (by omega)]

/-- Settles O57: the two commands write the register and the `OUT_EN` bit of their own pin alone, and `SD_REG`. -/
theorem otherPinsShareTheModulator : Obligations.OtherPinsShareTheModulator := by
  intro s pin k hw hok hne hk hs
  obtain ⟨p, hp⟩ := pin_of_ok hok
  obtain ⟨f, hf⟩ := readLoc_of_locate hw (cfgWf_locate_func hw.1 hp) rfl
  obtain ⟨c, hc⟩ := readLoc_of_locate hw (cfgWf_locate_ctrl hw.1 hp) rfl
  obtain ⟨t, ht, rfl, -⟩ := setupResult s pin p f c hw hp hf hc (quietFor_of_nil hs 8)
  obtain ⟨u, hu, rfl, -, hdisabled⟩ := closeResult s pin p c hw hp hc (quietFor_of_nil hs 6)
  obtain ⟨-, hprescale, htarget, -⟩ :=
    fields_of_enable_update (ins := 0x00010000#32) (by decide) (by decide) (by decide) s.sdReg
  refine ⟨_, _, ht, ?_, htarget, hprescale, hu, ?_, hdisabled⟩
  · exact bound_of_same_bits hk rfl (List.getElem?_set_ne hne.symm) (getLsbD_or_other_bit hne s.outEn)
  · exact bound_of_same_bits hk rfl (List.getElem?_set_ne hne.symm) (getLsbD_andNot_other_bit hne s.outEn)

end Sys2Proof.Machine
